-- ==== Sys2Proof/Word.lean ====
section
/-! DEFINITION. The word type of the CORE: every register, memory cell, operand and ALU value is one unsigned byte
(00_scope.md R7, R8). -/

namespace Sys2Proof

/-- A byte, 0..255, unsigned (R8). -/
abbrev Byte := BitVec 8

end Sys2Proof
end

