-- ==== Sys2Proof/Syntax.lean ====
section
/-! DEFINITION. The instruction set as syntax: the closed list of 13 instructions (30_encoding.md R72), each with its raw
operand bytes (R76), and the fixed three-byte window every step fetches (R70). -/

namespace Sys2Proof

/-- The 13 instruction names of the dispatch table (R72), without operands: what an opcode byte selects. -/
inductive Op where
  /-- Halt. -/
  | hlt
  /-- LoadImmediate. -/
  | ldi
  /-- Print. -/
  | prn
  /-- Multiply. -/
  | mul
  /-- Add. -/
  | add
  /-- Compare. -/
  | cmp
  /-- Push. -/
  | push
  /-- Pop. -/
  | pop
  /-- Call. -/
  | call
  /-- Return. -/
  | ret
  /-- Jump. -/
  | jmp
  /-- JumpIfEqual. -/
  | jeq
  /-- JumpIfNotEqual. -/
  | jne
  deriving DecidableEq, Repr

/-- The closed list of R72, in the table's order. -/
def Op.all : List Op :=
  [.hlt, .ldi, .prn, .mul, .add, .cmp, .push, .pop, .call, .ret, .jmp, .jeq, .jne]

/-- The four formats of R71: no operand, one register, two registers, register and immediate. -/
inductive Format where
  | n | r | rr | ri
  deriving DecidableEq, Repr

/-- The format of each instruction (R71). -/
def Op.format : Op → Format
  | .hlt => .n
  | .ldi => .ri
  | .prn => .r
  | .mul => .rr
  | .add => .rr
  | .cmp => .rr
  | .push => .r
  | .pop => .r
  | .call => .r
  | .ret => .n
  | .jmp => .r
  | .jeq => .r
  | .jne => .r

/-- The encoded length in bytes of a format: one opcode byte and the operands it uses (R70, R71). -/
def Format.length : Format → Nat
  | .n => 1
  | .r => 2
  | .rr => 3
  | .ri => 3

/-- The short mnemonic of R72, as spec/opcode_table.json spells it. -/
def Op.mnemonic : Op → String
  | .hlt => "HLT"
  | .ldi => "LDI"
  | .prn => "PRN"
  | .mul => "MUL"
  | .add => "ADD"
  | .cmp => "CMP"
  | .push => "PUSH"
  | .pop => "POP"
  | .call => "CALL"
  | .ret => "RET"
  | .jmp => "JMP"
  | .jeq => "JEQ"
  | .jne => "JNE"

/-- An instruction with its operands. Every operand is the raw byte fetched from memory, with no extension, scaling or
masking (R76); the bytes a format fetches and ignores are not part of it (R71). -/
inductive Instr where
  /-- Halt (R100). -/
  | hlt
  /-- LoadImmediate: destination register byte, value (R101). -/
  | ldi (r i : Byte)
  /-- Print: source register byte (R102). -/
  | prn (r : Byte)
  /-- Multiply: regA (destination and first factor), regB (R111). -/
  | mul (a b : Byte)
  /-- Add: regA (destination and first addend), regB (R112). -/
  | add (a b : Byte)
  /-- Compare: regA, regB (R113). -/
  | cmp (a b : Byte)
  /-- Push: source register byte (R120). -/
  | push (r : Byte)
  /-- Pop: destination register byte (R121). -/
  | pop (r : Byte)
  /-- Call: register byte holding the target (R122). -/
  | call (r : Byte)
  /-- Return (R123). -/
  | ret
  /-- Jump: register byte holding the target (R130). -/
  | jmp (r : Byte)
  /-- JumpIfEqual: register byte holding the target (R131). -/
  | jeq (r : Byte)
  /-- JumpIfNotEqual: register byte holding the target (R132). -/
  | jne (r : Byte)
  deriving DecidableEq, Repr

/-- The name of an instruction: its dispatch-table entry. -/
def Instr.op : Instr → Op
  | .hlt => .hlt
  | .ldi _ _ => .ldi
  | .prn _ => .prn
  | .mul _ _ => .mul
  | .add _ _ => .add
  | .cmp _ _ => .cmp
  | .push _ => .push
  | .pop _ => .pop
  | .call _ => .call
  | .ret => .ret
  | .jmp _ => .jmp
  | .jeq _ => .jeq
  | .jne _ => .jne

/-- The encoded length of an instruction, a function of its name alone (R79). -/
def Instr.length (i : Instr) : Nat := i.op.format.length

/-- The three bytes a step fetches: the opcode at `pc`, operand1 at `pc + 1`, operand2 at `pc + 2` (R70, 40_engine.md R91).
It is the latch of 10_state.md R38: fixed before the handler runs, gone after the step. -/
structure Window where
  opcode : Byte
  o1 : Byte
  o2 : Byte
  deriving DecidableEq, Repr

/-- Why a sequence of bytes is not an instruction. -/
inductive DecodeError where
  /-- The opcode byte is not in the dispatch table (R77). -/
  | unknownOpcode (opcode : Byte)
  /-- Fewer bytes than the opcode's encoded length (only `decode` on a byte list; a fetched window is never short). -/
  | truncated
  deriving DecidableEq, Repr

end Sys2Proof
end

