-- ==== Sys2Proof/Config.lean ====
section
/-! DEFINITION. The parameters of the CORE (00_scope.md R7): the opcode assignment `OPC` and the reset values `resetRegs` of
registers 0 to 6. "The model takes OPC and resetRegs as arguments; every other entry is fixed." -/

namespace Sys2Proof

/-- An opcode assignment `OPC : Instruction -> Byte` (30_encoding.md R73). Its default, R72's table, is `defaultOpc` in
Sys2Proof/Decode.lean. -/
abbrev OpcodeMap := Op → Byte

/-- R73: one byte selects at most one handler. -/
abbrev OpcodeMap.Injective (opc : OpcodeMap) : Prop := Function.Injective opc

/-- The reset values of registers 0..6, in index order (R7, 10_state.md R42). -/
abbrev ResetRegs := Vector Byte 7

/-- DESIGN CHOICE (log entry 2, unsafe): the spec leaves `resetRegs` unspecified; `State.reset` takes zeros. `State.resetWith`
and `boot` take any value, and statements about reset quantify over it. -/
def Config.resetRegs : ResetRegs := Vector.replicate 7 0

/-- The number of bytes of memory, addresses 0..255 (R7, 20_memory.md R50). -/
def Config.memorySize : Nat := 256

end Sys2Proof
end

