-- ==== Sys2Proof/Machine/State.lean ====
section
/-! DEFINITION. The state of the CORE (10_state.md): register file, program counter, flag state, run status with its fault
record, memory, output trace; the value of each at reset (R42); and the reasons a step can stop. -/

namespace Sys2Proof.Machine

/-- A register of the register file, 0..7 (R20): R0..R4, IM (5), IS (6), SP (7). -/
abbrev RegId := Fin 8

/-- The interrupt mask register, never driven (R22). -/
abbrev RegId.im : RegId := 5

/-- The interrupt status register, never driven (R23). -/
abbrev RegId.is : RegId := 6

/-- The stack pointer (R24). -/
abbrev RegId.sp : RegId := 7

/-- The flag state `FL`: four values (R31, conflict C3), with no bit layout (R34). -/
inductive FlagState where
  | unset | equal | greater | less
  deriving DecidableEq, Repr

/-- The kind of an ALU operation (42_arith_compare.md R110). The closed set is Add and Compare; `other` stands for any kind
outside it (DESIGN CHOICE, log entry 6: the spec gives no type of kinds). -/
inductive AluKind where
  | add | compare
  | other (k : Nat)
  deriving DecidableEq, Repr

/-- The cause of a fault with its info (60_exceptions.md R142 to R146). -/
inductive Cause where
  /-- R142: the fetched opcode has no entry in the dispatch table. -/
  | unknownInstruction (opcode : Byte)
  /-- R143: a value-assigning instruction targets a register index of 5 or more. -/
  | reservedRegisterWrite (register : Byte)
  /-- R144: the ALU is invoked with a kind outside Add and Compare; raised by no instruction. -/
  | unsupportedALUOperation (kind : AluKind)
  /-- R145: an instruction reads a register through an operand byte 8..255. -/
  | registerIndexOutOfRange (register : Byte)
  /-- R146: a memory access at an address outside 0..255. -/
  | memoryAddressOutOfRange (target : Nat)
  deriving DecidableEq, Repr

/-- The fault record (R141): the cause with its info, and the address of the faulting instruction's opcode. Its code is
computed from the cause (`causeCode`; log entry 8). -/
structure FaultRecord where
  cause : Cause
  address : Nat
  deriving DecidableEq, Repr

/-- The run status (R36). `halted` and `faulted` are terminal. -/
inductive RunStatus where
  | running
  | halted
  | faulted (record : FaultRecord)
  deriving DecidableEq, Repr

/-- Memory (R41, 20_memory.md R50): the cells that do not hold 0, in strictly rising order of address. An unlisted address
reads as 0, the value of every byte at creation. The canonical form is `Memory.wf`. -/
abbrev Memory := List Host.Cell

/-- The state of the CORE (10_state.md, R42's table). -/
structure State where
  /-- The register file x[0..7] (R20). -/
  regs : Vector Byte 8
  /-- The program counter, a natural number that never wraps (R28, R29). -/
  pc : Nat
  /-- The flag state FL (R31). -/
  fl : FlagState
  /-- The run status (R36). -/
  status : RunStatus
  /-- Memory, 256 bytes (R41). -/
  mem : Memory
  /-- The output trace, oldest byte first (R37). -/
  out : List Byte
  deriving DecidableEq, Repr

/-- Why a step of the machine stops. No meaning of an instruction answers one of these: the faults of the spec are the
status `faulted` of a next state (R36, R149). Both are safe: a state that has no step proves nothing about a next one. -/
inductive Fault where
  /-- Raised by `step` alone, in a state whose status is Halted: "A state whose status is Halted has no further step"
  (40_engine.md R94). Safe. -/
  | noStepHalted
  /-- Raised by `step` alone, in a state whose status is Faulted: "a faulted state has no further step" (R95). Carries the
  record. Safe. -/
  | noStepFaulted (record : FaultRecord)
  deriving DecidableEq, Repr

/-- Why the model has no meaning for an instruction. -/
inductive Refusal where
  /-- Raised by an arm of `exec` whose instruction has no meaning yet; no arm answers it now. Safe. -/
  | notModelled (mnemonic : String)
  deriving DecidableEq, Repr

/-- Reset with given values of registers 0..6 (R42, 70_reset_and_hazards.md R170): SP = 0xF4, pc = 0, FL = Unset, status
Running, memory all zero, output empty. -/
def State.resetWith (resetRegs : ResetRegs) : State where
  regs := resetRegs.push 0xF4
  pc := 0
  fl := .unset
  status := .running
  mem := []
  out := []

/-- The machine right after reset, before a program image is written. Registers 0..6 are the model's choice (log entry 2). -/
def State.reset : State := State.resetWith Config.resetRegs

end Sys2Proof.Machine
end

