-- ==== Sys2Proof/Machine/Ops.lean ====
section
/-! DEFINITION. The named operations over registers, memory, program counter and output, and taking a fault.

Each handler is written as the spec's pseudocode in `Except Cause`: a raised cause abandons what the handler computed, and
`complete` then raises it from the state at the start of the step, so that every fault is precise (60_exceptions.md R149). -/

namespace Sys2Proof.Machine

/-- One step's answer. -/
abbrev Outcome := Host.Outcome State Fault Refusal

/-! ### Registers -/

/-- `x[r]` (10_state.md R20). No register is hardwired (R21). -/
def State.reg (s : State) (r : RegId) : Byte := s.regs[r.val]'r.isLt

/-- `x[r] <- v`. "No validation at this layer" (R20). -/
def State.setReg (s : State) (r : RegId) (v : Byte) : State :=
  { s with regs := s.regs.set r.val v r.isLt }

/-- `SP`, register 7 (R24). -/
def State.sp (s : State) : Byte := s.reg .sp

/-- `SP <- (SP - 1) mod 256` (R25). -/
def State.decSP (s : State) : State := s.setReg .sp (s.sp - 1)

/-- `SP <- (SP + 1) mod 256` (R25). -/
def State.incSP (s : State) : State := s.setReg .sp (s.sp + 1)

/-! ### Program counter, flags, output -/

/-- `pc <- pc + n`: the advance by a handler's width, never wrapping (R29, R30). -/
def State.advance (s : State) (n : Nat) : State := { s with pc := s.pc + n }

/-- `pc <- t` for a target byte (44_branch.md: an absolute address 0..255). -/
def State.jumpTo (s : State) (t : Byte) : State := { s with pc := t.toNat }

/-- `FL <- v` (R32). -/
def State.setFl (s : State) (v : FlagState) : State := { s with fl := v }

/-- `emit(v)`: append to the output trace (R37, 41_halt_load_print.md R102). -/
def State.emit (s : State) (v : Byte) : State := { s with out := s.out ++ [v] }

/-- The state with another memory. -/
def State.setMem (s : State) (m : Memory) : State := { s with mem := m }

/-- Set the run status (R36). -/
def State.setStatus (s : State) (v : RunStatus) : State := { s with status := v }

/-- The running flag (R35), a view of the run status: "true at construction; set false only by the halt instruction". So it is
false exactly when the status is Halted. A fault ends the engine loop by its status (R95) and does not touch the flag. DEDUCED
(log entry 13, unsafe): that the flag is still true in a Faulted state is read from R35's "only"; the source has no state after
a fatal error (R36). -/
def State.running (s : State) : Bool := decide (s.status ≠ .halted)

/-! ### Memory -/

/-- The byte at an address of the memory list; an unlisted address reads as 0 (20_memory.md R50). -/
def Memory.read : Memory → Nat → Byte
  | [], _ => 0
  | c :: m, a => if c.1 = a then c.2 else Memory.read m a

/-- The list without its entries for one address. -/
def Memory.erase : Memory → Nat → Memory
  | [], _ => []
  | c :: m, a => if c.1 = a then Memory.erase m a else c :: Memory.erase m a

/-- The list with an entry put before the first larger address. -/
def Memory.insert : Memory → Nat → Byte → Memory
  | [], a, v => [(a, v)]
  | c :: m, a, v => if a < c.1 then (a, v) :: c :: m else c :: Memory.insert m a v

/-- Set one byte, keeping the canonical form: writing 0 removes the entry. -/
def Memory.write (m : Memory) (a : Nat) (v : Byte) : Memory :=
  if v = 0 then Memory.erase m a else Memory.insert (Memory.erase m a) a v

/-- The canonical form from a least address on: strictly rising addresses below 256, no entry equal to 0. -/
def Memory.wfFrom : Nat → Memory → Bool
  | _, [] => true
  | lo, c :: m =>
    decide (lo ≤ c.1) && decide (c.1 < Config.memorySize) && decide (c.2 ≠ 0) && Memory.wfFrom (c.1 + 1) m

/-- The canonical form of memory. -/
def Memory.wf (m : Memory) : Bool := Memory.wfFrom 0 m

/-- `MemRead(a, 1)` (R51). -/
def memRead (s : State) (a : Nat) : Except Cause Byte :=
  if a < Config.memorySize then .ok (Memory.read s.mem a) else .error (.memoryAddressOutOfRange a)

/-- `MemWrite(a, 1, v)` (R52). -/
def memWrite (s : State) (a : Nat) (v : Byte) : Except Cause State :=
  if a < Config.memorySize then .ok (s.setMem (Memory.write s.mem a v))
  else .error (.memoryAddressOutOfRange a)

/-! ### Taking a fault -/

/-- The cause code (60_exceptions.md R142 to R146). -/
def causeCode : Cause → Nat
  | .unknownInstruction _ => 1
  | .reservedRegisterWrite _ => 2
  | .unsupportedALUOperation _ => 3
  | .registerIndexOutOfRange _ => 4
  | .memoryAddressOutOfRange _ => 5

/-- The code of a fault record (R141). -/
def FaultRecord.code (r : FaultRecord) : Nat := causeCode r.cause

/-- `raise E(info)` (R141, R149): the step ends with status Faulted, its record naming the cause and the address of the
instruction's opcode, and nothing else changes. There is no trap entry, handler or vector (R151), and no return from a
fault: only reset leaves the status Faulted (R152), so no operation stands beside this one. -/
def raise (c : Cause) (s : State) : Outcome :=
  .next (s.setStatus (.faulted ⟨c, s.pc⟩))

/-- The end of a handler run from `s`: the state it computed, or the fault it raised, taken from `s` itself (R149). -/
def complete (s : State) (r : Except Cause State) : Outcome :=
  match r with
  | .ok t => .next t
  | .error c => raise c s

/-- The record of a faulted state: a status output of the CORE (00_scope.md R6 (d)). -/
def State.faultRecord? (s : State) : Option FaultRecord :=
  match s.status with
  | .running => none
  | .halted => none
  | .faulted r => some r

end Sys2Proof.Machine
end

