-- ==== Sys2Proof/Machine/Operands.lean ====
section
/-! DEFINITION. The operand forms (10_state.md R26, R27): a destination register byte, a source register byte. An immediate
is its byte unchanged (30_encoding.md R76). -/

namespace Sys2Proof.Machine

/-- A destination operand: below 5 it names a general-purpose register, otherwise the instruction raises
`ReservedRegisterWrite` (R27, 60_exceptions.md R143). -/
def destReg (o : Byte) : Except Cause RegId :=
  if h : o.toNat < 5 then .ok ⟨o.toNat, Nat.lt_trans h (by decide)⟩ else .error (.reservedRegisterWrite o)

/-- A source operand: below 8 it names a register, any of which may be read, otherwise the instruction raises
`RegisterIndexOutOfRange` (R26, R27, R145). -/
def srcReg (o : Byte) : Except Cause RegId :=
  if h : o.toNat < 8 then .ok ⟨o.toNat, h⟩ else .error (.registerIndexOutOfRange o)

end Sys2Proof.Machine
end

