-- ==== Sys2Proof/Machine/Flags.lean ====
section
/-! DEFINITION. The flag computation and the ALU (42_arith_compare.md R110, R112, R113). -/

namespace Sys2Proof.Machine

/-- The flag state of a comparison: the order of two unsigned bytes (R113). -/
def compareFlag (a b : Byte) : FlagState :=
  if a = b then .equal else if b.toNat < a.toNat then .greater else .less

/-- The ALU: "producing either an updated register or a flag state" (R110). Add is modulo 256 (R112); Compare mutates no
register (R113); any other kind raises `UnsupportedALUOperation`. -/
def alu (kind : AluKind) (a b : RegId) (s : State) : Except Cause State :=
  match kind with
  | .add => .ok (s.setReg a (s.reg a + s.reg b))
  | .compare => .ok (s.setFl (compareFlag (s.reg a) (s.reg b)))
  | .other k => .error (.unsupportedALUOperation (.other k))

end Sys2Proof.Machine
end

