-- ==== Sys2Proof/Machine/Arith.lean ====
section
/-! DEFINITION. Multiply, Add and Compare (42_arith_compare.md). -/

namespace Sys2Proof.Machine

/-- Multiply (R111): `x[a] <- (x[a] * x[b]) mod 256`; it does not go through the ALU (R110) and writes no flag. -/
def execMul (a b : Byte) (s : State) : Outcome :=
  complete s do
    let d ← destReg a
    let q ← srcReg b
    return (s.setReg d (s.reg d * s.reg q)).advance 3

/-- Add (R112): ALU Add into `x[a]`. -/
def execAdd (a b : Byte) (s : State) : Outcome :=
  complete s do
    let d ← destReg a
    let q ← srcReg b
    let t ← alu .add d q s
    return t.advance 3

/-- Compare (R113): ALU Compare of any two registers into FL. -/
def execCmp (a b : Byte) (s : State) : Outcome :=
  complete s do
    let p ← srcReg a
    let q ← srcReg b
    let t ← alu .compare p q s
    return t.advance 3

end Sys2Proof.Machine
end

