-- ==== Sys2Proof/Machine/Branch.lean ====
section
/-! DEFINITION. Jump, JumpIfEqual and JumpIfNotEqual (44_branch.md). -/

namespace Sys2Proof.Machine

/-- The taken branch: `pc <- x[r]` (R130 to R132). -/
def branchTo (r : Byte) (s : State) : Except Cause State := do
  let q ← srcReg r
  return s.jumpTo (s.reg q)

/-- Jump (R130). -/
def execJmp (r : Byte) (s : State) : Outcome :=
  complete s (branchTo r s)

/-- JumpIfEqual (R131): a branch not taken reads no register and raises nothing. -/
def execJeq (r : Byte) (s : State) : Outcome :=
  complete s (if s.fl = .equal then branchTo r s else .ok (s.advance 2))

/-- JumpIfNotEqual (R132): Unset counts as not equal. -/
def execJne (r : Byte) (s : State) : Outcome :=
  complete s (if s.fl ≠ .equal then branchTo r s else .ok (s.advance 2))

end Sys2Proof.Machine
end

