-- ==== Sys2Proof/Machine/LoadPrint.lean ====
section
/-! DEFINITION. Halt, LoadImmediate and Print (41_halt_load_print.md). -/

namespace Sys2Proof.Machine

/-- Halt (R100): `running <- false`; the pc is not changed. -/
def execHlt (s : State) : Outcome :=
  complete s (.ok (s.setStatus .halted))

/-- LoadImmediate (R101): `x[r] <- i`, for a destination below 5. -/
def execLdi (r i : Byte) (s : State) : Outcome :=
  complete s do
    let d ← destReg r
    return (s.setReg d i).advance 3

/-- Print (R102): `emit(x[r])`, for any register 0..7. -/
def execPrn (r : Byte) (s : State) : Outcome :=
  complete s do
    let q ← srcReg r
    return (s.emit (s.reg q)).advance 2

end Sys2Proof.Machine
end

