-- ==== Sys2Proof/Machine/Stack.lean ====
section
/-! DEFINITION. Push, Pop, Call and Return (43_stack_call.md). The statements of each handler run in the spec's order, so
`PUSH R7` and `CALL R7` see the decremented stack pointer (R120, R122). -/

namespace Sys2Proof.Machine

/-- The address Push and Call store to: the stack pointer after its decrement modulo 256 (R120, R122). -/
def pushAddress (s : State) : Nat := s.decSP.sp.toNat

/-- The return address Call pushes, `pc + 2` (R122). A Call executes only at `pc <= 253`, where it is a byte (20_memory.md
R54). Above that, which no step reaches, it is taken modulo 256 (DESIGN CHOICE, log entry 7). -/
def returnAddress (s : State) : Byte := BitVec.ofNat 8 (s.pc + 2)

/-- Push (R120): `SP <- SP - 1; MemWrite(SP, x[r]); pc <- pc + 2`. -/
def execPush (r : Byte) (s : State) : Outcome :=
  complete s do
    let q ← srcReg r
    let t ← memWrite s.decSP (pushAddress s) (s.decSP.reg q)
    return t.advance 2

/-- Pop (R121): `x[r] <- MemRead(SP); SP <- SP + 1; pc <- pc + 2`. -/
def execPop (r : Byte) (s : State) : Outcome :=
  complete s do
    let d ← destReg r
    let v ← memRead s s.sp.toNat
    return (s.setReg d v).incSP.advance 2

/-- Call (R122): `ret <- pc + 2; SP <- SP - 1; MemWrite(SP, ret); pc <- x[r]`. -/
def execCall (r : Byte) (s : State) : Outcome :=
  complete s do
    let q ← srcReg r
    let t ← memWrite s.decSP (pushAddress s) (returnAddress s)
    return t.jumpTo (t.reg q)

/-- Return (R123): `pc <- MemRead(SP); SP <- SP + 1`. -/
def execRet (s : State) : Outcome :=
  complete s do
    let v ← memRead s s.sp.toNat
    return (s.jumpTo v).incSP

end Sys2Proof.Machine
end

