-- ==== Sys2Proof/Decode.lean ====
section
/-! DEFINITION. Decoding and encoding (30_encoding.md): by equality of the whole opcode byte with an entry of the dispatch
table (R74), every operand a raw byte (R76), every other opcode byte rejected by name (R77). The opcode assignment is the
parameter `opc` throughout (R73). -/

namespace Sys2Proof

/-- R72's table, the default of the parameter `OPC`. UNVERIFIED (log entry 1): the spec takes these values from general
knowledge of the LS-8 (92_eei_decisions.md D1). -/
def defaultOpc : OpcodeMap
  | .hlt => 0x01
  | .ldi => 0x82
  | .prn => 0x47
  | .mul => 0xA2
  | .add => 0xA0
  | .cmp => 0xA7
  | .push => 0x45
  | .pop => 0x46
  | .call => 0x50
  | .ret => 0x11
  | .jmp => 0x54
  | .jeq => 0x55
  | .jne => 0x56

/-- The dispatch-table lookup: the instruction whose opcode is the whole byte `b` (R74, 40_engine.md R92). -/
def lookupOp (opc : OpcodeMap) (b : Byte) : Option Op :=
  Op.all.find? fun op => opc op == b

/-- An instruction name with the operand bytes its format uses (R71). -/
def instrOf (op : Op) (o1 o2 : Byte) : Instr :=
  match op with
  | .hlt => .hlt
  | .ldi => .ldi o1 o2
  | .prn => .prn o1
  | .mul => .mul o1 o2
  | .add => .add o1 o2
  | .cmp => .cmp o1 o2
  | .push => .push o1
  | .pop => .pop o1
  | .call => .call o1
  | .ret => .ret
  | .jmp => .jmp o1
  | .jeq => .jeq o1
  | .jne => .jne o1

/-- Decoding the fetched window (R70, R74, R78): the operand bytes never make it illegal, and the ones the format does not
use are ignored. -/
def decodeWindow (opc : OpcodeMap) (w : Window) : Except DecodeError Instr :=
  match lookupOp opc w.opcode with
  | some op => .ok (instrOf op w.o1 w.o2)
  | none => .error (.unknownOpcode w.opcode)

/-- Decoding a program's bytes: one instruction of its encoded length (R70, R79) and the rest of the bytes. -/
def decode (opc : OpcodeMap) (bytes : List Byte) : Except DecodeError (Instr × List Byte) :=
  match bytes with
  | [] => .error .truncated
  | b :: rest =>
    match lookupOp opc b with
    | none => .error (.unknownOpcode b)
    | some op =>
      match op.format, rest with
      | .n, rest => .ok (instrOf op 0 0, rest)
      | .r, o1 :: rest => .ok (instrOf op o1 0, rest)
      | .rr, o1 :: o2 :: rest => .ok (instrOf op o1 o2, rest)
      | .ri, o1 :: o2 :: rest => .ok (instrOf op o1 o2, rest)
      | _, _ => .error .truncated

/-- The operand bytes of an instruction, in address order (R71). -/
def operandBytes (i : Instr) : List Byte :=
  match i with
  | .hlt => []
  | .ldi r v => [r, v]
  | .prn r => [r]
  | .mul a b => [a, b]
  | .add a b => [a, b]
  | .cmp a b => [a, b]
  | .push r => [r]
  | .pop r => [r]
  | .call r => [r]
  | .ret => []
  | .jmp r => [r]
  | .jeq r => [r]
  | .jne r => [r]

/-- The encoded bytes of an instruction: the opcode byte and the operands it uses (R70, R71). -/
def encode (opc : OpcodeMap) (i : Instr) : List Byte :=
  opc i.op :: operandBytes i

/-- Byte `k` of a number whose bits are numbered from the first byte's least significant bit. -/
def byteOfWord (w k : Nat) : Byte := BitVec.ofNat 8 (w >>> (8 * k))

/-- The window a table word stands for: its `nbits` bits, the first byte at the lowest address, every bit above zero. -/
def windowOfWord (nbits w : Nat) : Window :=
  let v := w % 2 ^ nbits
  ⟨byteOfWord v 0, byteOfWord v 1, byteOfWord v 2⟩

/-- What this decoder reads, under the default opcode assignment, from an instruction of spec/opcode_table.json. -/
def decodeTableWord (nbits w : Nat) : Option Instr :=
  match decodeWindow defaultOpc (windowOfWord nbits w) with
  | .ok i => some i
  | .error _ => none

end Sys2Proof
end

