-- ==== Sys2Proof/Machine/Fetch.lean ====
section
/-! DEFINITION. Fetch and dispatch lookup (40_engine.md R91, R92), and the placing of a fetched word for the host. -/

namespace Sys2Proof.Machine

/-- Fetch (R91): three bytes, always, at increasing addresses. The first address above 255 raises
`MemoryAddressOutOfRange`. -/
def fetch (s : State) : Except Cause Window := do
  let opcode ← memRead s s.pc
  let o1 ← memRead s (s.pc + 1)
  let o2 ← memRead s (s.pc + 2)
  return ⟨opcode, o1, o2⟩

/-- The dispatch lookup (R92): an opcode that is not in the table raises `UnknownInstruction`. A window is never truncated. -/
def lookupInstr (opc : OpcodeMap) (w : Window) : Except Cause Instr :=
  match decodeWindow opc w with
  | .ok i => .ok i
  | .error _ => .error (.unknownInstruction w.opcode)

/-- The first two actions of a step, in R148's order: fetch, then lookup. -/
def fetchInstr (opc : OpcodeMap) (s : State) : Except Cause Instr := do
  let w ← fetch s
  lookupInstr opc w

/-- A byte put in memory by the host; an address outside 0..255 does not exist and is left alone. -/
def State.poke (s : State) (a : Nat) (v : Byte) : State :=
  if a < Config.memorySize then s.setMem (Memory.write s.mem a v) else s

/-- The state with the three bytes of a window where the next fetch reads them. -/
def State.placeWindow (s : State) (w : Window) : State :=
  ((s.poke s.pc w.opcode).poke (s.pc + 1) w.o1).poke (s.pc + 2) w.o2

end Sys2Proof.Machine
end

