-- ==== Sys2Proof/Machine/Step.lean ====
section
/-! DEFINITION. One step of the engine (40_engine.md R90, R97). -/

namespace Sys2Proof.Machine

/-- The complete step under an opcode assignment (R97): a running state fetches, looks the opcode up and invokes the handler;
a fault of the first two is raised; a Halted or Faulted state has no step (R94, R95, 60_exceptions.md R140). -/
def stepWith (opc : OpcodeMap) (s : State) : Host.Outcome State Fault Refusal :=
  match s.status with
  | .halted => .fault .noStepHalted
  | .faulted r => .fault (.noStepFaulted r)
  | .running =>
    match fetchInstr opc s with
    | .error c => raise c s
    | .ok i => exec i s

/-- The step under the default opcode assignment (30_encoding.md R72, R73). -/
def step (s : State) : Host.Outcome State Fault Refusal := stepWith defaultOpc s

/-- The state with the instruction of a table word at the program counter, every bit above `nbits` zero (log entry 4). -/
def State.withFetchWord (s : State) (nbits w : Nat) : State :=
  s.placeWindow (windowOfWord nbits w)

end Sys2Proof.Machine
end

