-- ==== Sys2Proof/Machine/Boot.lean ====
section
/-! DEFINITION. What the host does to the CORE and sees of it (00_scope.md R6): the program image, the step input and its
answer, the run loop, the text of the output. The step input and the run loop take the opcode assignment as an argument, as
`stepWith` does (30_encoding.md R73). -/

namespace Sys2Proof.Machine

/-- Bytes written sequentially from an address on (70_reset_and_hazards.md R173). -/
def Memory.writeBytes : Memory → Nat → List Byte → Memory
  | m, _, [] => m
  | m, a, b :: bs => Memory.writeBytes (Memory.write m a b) (a + 1) bs

/-- Construction with a program image (R170, R173): after reset and before the first step the host writes the image from
address 0. DESIGN CHOICE (log entry 12): an image of more than 256 bytes gives no state, as the host does not start the
CORE with it (U14), and an empty one is accepted. -/
def boot (resetRegs : ResetRegs) (image : List Byte) : Option State :=
  if image.length ≤ Config.memorySize then
    some ((State.resetWith resetRegs).setMem (Memory.writeBytes [] 0 image))
  else none

/-- The answer to a step input (R6 (b), 60_exceptions.md R140): the next state, or that the state is final, or the fault
record. `refused` stands for a refusal of the model; a step answers none. -/
inductive StepAnswer where
  | stepped (t : State)
  | halted (t : State)
  | faulted (t : State) (record : FaultRecord)
  | refused (r : Refusal)
  deriving DecidableEq, Repr

/-- The answer that a state itself gives: its status seen at the interface. -/
def answerOf (t : State) : StepAnswer :=
  match t.status with
  | .running => .stepped t
  | .halted => .halted t
  | .faulted r => .faulted t r

/-- The step input (R6 (b)) under an opcode assignment. That a terminal state, which has no step (R140), answers its status and
stays as it is, is the model's choice (DESIGN CHOICE, log entry 5). -/
def stepInput (opc : OpcodeMap) (s : State) : StepAnswer :=
  match stepWith opc s with
  | .next t => answerOf t
  | .fault _ => answerOf s
  | .refused r => .refused r

/-- The engine loop "while Running" (40_engine.md R90) under an opcode assignment, for at most `k` steps: it ends when the
status is no longer Running (R94, R95). -/
def runFor (opc : OpcodeMap) : Nat → State → State
  | 0, s => s
  | k + 1, s =>
    match stepWith opc s with
    | .next t => runFor opc k t
    | .fault _ => s
    | .refused _ => s

/-- The host's rendering of the output: each byte in decimal, newline-terminated (R37, R156; the newline is one line feed). -/
def renderOut (out : List Byte) : String :=
  String.join (out.map fun b => toString b.toNat ++ "\n")

end Sys2Proof.Machine
end

