-- ==== Sys2Proof/WellFormed.lean ====
section
/-! DEFINITION. The static operand rule of an instruction: every explicit destination is a general-purpose register and
every explicit source names a register (10_state.md R21, R26, R27).

An instruction that fails it still decodes (30_encoding.md R78): its handler makes the checks when it executes, and raises.
So this predicate is no hypothesis of decoding; it is the condition under which a handler's operand checks all pass. -/

namespace Sys2Proof

/-- The explicit destination operand of an instruction (R27's table, first column). -/
def Instr.destination? : Instr → Option Byte
  | .hlt => none
  | .ldi r _ => some r
  | .prn _ => none
  | .mul a _ => some a
  | .add a _ => some a
  | .cmp _ _ => none
  | .push _ => none
  | .pop r => some r
  | .call _ => none
  | .ret => none
  | .jmp _ => none
  | .jeq _ => none
  | .jne _ => none

/-- The source operands of an instruction in operand order (R27's table, second column). A conditional branch reads its
operand only when it is taken. -/
def Instr.sources : Instr → List Byte
  | .hlt => []
  | .ldi _ _ => []
  | .prn r => [r]
  | .mul a b => [a, b]
  | .add a b => [a, b]
  | .cmp a b => [a, b]
  | .push r => [r]
  | .pop _ => []
  | .call r => [r]
  | .ret => []
  | .jmp r => [r]
  | .jeq r => [r]
  | .jne r => [r]

/-- A destination operand is legal when it is below 5 (R21, R27). -/
def destinationLegal (o : Byte) : Bool := decide (o.toNat < 5)

/-- A source operand is legal when it is below 8 (R26, R27). -/
def sourceLegal (o : Byte) : Bool := decide (o.toNat < 8)

/-- Every explicit register operand is legal. -/
def Instr.wellFormed (i : Instr) : Bool :=
  i.destination?.all destinationLegal && i.sources.all sourceLegal

end Sys2Proof
end

