-- ==== Sys2Proof/Safety.lean ====
section
/-! DEFINITION. The terms in which claims are stated: what a fault record must say, the invariant of the machine, the ends
of a run, and what an instruction leaves unchanged. What depends on the opcode assignment takes it as an argument
(30_encoding.md R73). -/

namespace Sys2Proof.Machine

/-- An operand byte names a register (10_state.md R26). -/
def Names (o : Byte) (r : RegId) : Prop := o.toNat = r.val

/-- Memory reads the same, byte by byte. -/
def MemSame (s t : State) : Prop := ∀ a, t.mem.read a = s.mem.read a

/-- Memory reads the same outside one address. -/
def MemSameBut (a : Nat) (s t : State) : Prop := ∀ b, b ≠ a → t.mem.read b = s.mem.read b

/-- Every register is unchanged outside a list of registers. -/
def RegsSameBut (rs : List RegId) (s t : State) : Prop := ∀ q, q ∉ rs → t.reg q = s.reg q

/-- The state that `raise` leaves: only the status differs (60_exceptions.md R149). -/
def faultedFrom (s : State) (c : Cause) : State := { s with status := .faulted ⟨c, s.pc⟩ }

/-- What a fault record says is true of the state it stands in (R141 to R146): the address is the pc, and the info is the
thing at fault. No record names an unsupported ALU operation (R144). -/
def RecordJustified (opc : OpcodeMap) (s : State) (r : FaultRecord) : Prop :=
  r.address = s.pc ∧
    match r.cause with
    | .unknownInstruction op => s.pc ≤ 253 ∧ s.mem.read s.pc = op ∧ ∀ name, opc name ≠ op
    | .reservedRegisterWrite o => s.pc ≤ 253 ∧ s.mem.read (s.pc + 1) = o ∧ 5 ≤ o.toNat
    | .unsupportedALUOperation _ => False
    | .registerIndexOutOfRange o =>
        s.pc ≤ 253 ∧ (s.mem.read (s.pc + 1) = o ∨ s.mem.read (s.pc + 2) = o) ∧ 8 ≤ o.toNat
    | .memoryAddressOutOfRange a => 254 ≤ s.pc ∧ a = max s.pc 256

/-- A terminal status is justified by the state: a halted state stands at a Halt opcode that could be fetched (R94, R100,
70_reset_and_hazards.md R176), and a fault record tells the truth. -/
def StatusJustified (opc : OpcodeMap) (s : State) : Prop :=
  match s.status with
  | .running => True
  | .halted => s.pc ≤ 253 ∧ s.mem.read s.pc = opc .hlt
  | .faulted r => RecordJustified opc s r

/-- The invariant of the machine under an opcode assignment: memory is in canonical form, the pc is in 0..256 (10_state.md R29), and a terminal status
is justified. -/
structure Inv (opc : OpcodeMap) (s : State) : Prop where
  mem : s.mem.wf = true
  pc : s.pc ≤ 256
  status : StatusJustified opc s

/-- A run from `s` ends well in `t` (40_engine.md R96): it reaches a state whose status is Halted. -/
def EndsWell (opc : OpcodeMap) (s t : State) : Prop := ∃ k, runFor opc k s = t ∧ t.status = .halted

/-- A run from `s` ends badly in `t`: it reaches a state whose status is Faulted. -/
def EndsBadly (opc : OpcodeMap) (s t : State) : Prop := ∃ k r, runFor opc k s = t ∧ t.status = .faulted r

/-- A run from `s` never ends: it is Running after any number of steps. -/
def NeverEnds (opc : OpcodeMap) (s : State) : Prop := ∀ k, (runFor opc k s).status = .running

end Sys2Proof.Machine
end

