-- ==== Sys2Proof/Certificates/Slice0/Obligations.lean ====
section
/-! DEFINITION. The statements for the provers. Each says what a rule of the spec says of the machine; OBLIGATIONS.json gives
the rule and its words. An operand byte `o` and a register `q` are tied by `Names o q`, so no statement shuts out a form:
the operand bytes that name no register have a clause of their own. -/

open Sys2Proof Sys2Proof.Machine

/-! ### Encoding -/

/-- R71, R72: the formats and the opcode table, as bytes written out. Each instruction's encoding, and the decoding of its
opcode with any operand bytes; the bytes a format ignores may be anything. -/
def Obligations.OpcodeTableEncodesAndDecodes : Prop :=
  ∀ o1 o2 : Byte,
    (encode defaultOpc .hlt = [0x01] ∧ decodeWindow defaultOpc ⟨0x01, o1, o2⟩ = .ok .hlt) ∧
    (encode defaultOpc (.ldi o1 o2) = [0x82, o1, o2] ∧ decodeWindow defaultOpc ⟨0x82, o1, o2⟩ = .ok (.ldi o1 o2)) ∧
    (encode defaultOpc (.prn o1) = [0x47, o1] ∧ decodeWindow defaultOpc ⟨0x47, o1, o2⟩ = .ok (.prn o1)) ∧
    (encode defaultOpc (.mul o1 o2) = [0xA2, o1, o2] ∧ decodeWindow defaultOpc ⟨0xA2, o1, o2⟩ = .ok (.mul o1 o2)) ∧
    (encode defaultOpc (.add o1 o2) = [0xA0, o1, o2] ∧ decodeWindow defaultOpc ⟨0xA0, o1, o2⟩ = .ok (.add o1 o2)) ∧
    (encode defaultOpc (.cmp o1 o2) = [0xA7, o1, o2] ∧ decodeWindow defaultOpc ⟨0xA7, o1, o2⟩ = .ok (.cmp o1 o2)) ∧
    (encode defaultOpc (.push o1) = [0x45, o1] ∧ decodeWindow defaultOpc ⟨0x45, o1, o2⟩ = .ok (.push o1)) ∧
    (encode defaultOpc (.pop o1) = [0x46, o1] ∧ decodeWindow defaultOpc ⟨0x46, o1, o2⟩ = .ok (.pop o1)) ∧
    (encode defaultOpc (.call o1) = [0x50, o1] ∧ decodeWindow defaultOpc ⟨0x50, o1, o2⟩ = .ok (.call o1)) ∧
    (encode defaultOpc .ret = [0x11] ∧ decodeWindow defaultOpc ⟨0x11, o1, o2⟩ = .ok .ret) ∧
    (encode defaultOpc (.jmp o1) = [0x54, o1] ∧ decodeWindow defaultOpc ⟨0x54, o1, o2⟩ = .ok (.jmp o1)) ∧
    (encode defaultOpc (.jeq o1) = [0x55, o1] ∧ decodeWindow defaultOpc ⟨0x55, o1, o2⟩ = .ok (.jeq o1)) ∧
    (encode defaultOpc (.jne o1) = [0x56, o1] ∧ decodeWindow defaultOpc ⟨0x56, o1, o2⟩ = .ok (.jne o1))

/-- A few words of spec/opcode_table.json, written out from the spec's encodings and numbered as the table numbers them,
decode to the instructions they stand for. -/
def Obligations.WrittenOutTableWordsDecode : Prop :=
  decodeTableWord 8 0b00000001 = some .hlt ∧
  decodeTableWord 24 0b00001000_00000000_10000010 = some (.ldi 0 8) ∧
  decodeTableWord 24 0b00000001_00000010_10100000 = some (.add 2 1) ∧
  decodeTableWord 16 0b00000011_01000101 = some (.push 3) ∧
  decodeTableWord 16 0b00000100_01010110 = some (.jne 4) ∧
  decodeTableWord 8 0b00000000 = none

/-- R77: the 13 assigned opcode bytes select instructions, every other byte, 0x00 among them, raises UnknownInstruction. -/
def Obligations.OnlyThirteenOpcodeBytesAreAssigned : Prop :=
  (∀ w : Window, (∃ i, decodeWindow defaultOpc w = .ok i) ↔
    w.opcode ∈ ([0x01, 0x11, 0x45, 0x46, 0x47, 0x50, 0x54, 0x55, 0x56, 0x82, 0xA0, 0xA2, 0xA7] : List Byte)) ∧
  (∀ s : State, s.status = .running → s.pc ≤ 253 →
    s.mem.read s.pc ∉ ([0x01, 0x11, 0x45, 0x46, 0x47, 0x50, 0x54, 0x55, 0x56, 0x82, 0xA0, 0xA2, 0xA7] : List Byte) →
    step s = .next (faultedFrom s (.unknownInstruction (s.mem.read s.pc))))

/-- R73: the default opcode assignment is injective, as the parameter must be. -/
def Obligations.DefaultOpcodeMapInjective : Prop :=
  OpcodeMap.Injective defaultOpc

/-- Under every injective opcode assignment, decoding the encoding of any instruction, whatever its operand bytes and
whatever bytes follow, gives back the instruction and the bytes that follow. -/
def Obligations.DecodeOfEncodeGivesInstruction : Prop :=
  ∀ opc : OpcodeMap, opc.Injective → ∀ (i : Instr) (rest : List Byte), decode opc (encode opc i ++ rest) = .ok (i, rest)

/-- The other direction, under every opcode assignment: the bytes a decode has read are exactly the encoding of the
instruction it gives. -/
def Obligations.DecodedBytesAreTheEncoding : Prop :=
  ∀ (opc : OpcodeMap) (bytes rest : List Byte) (i : Instr), decode opc bytes = .ok (i, rest) → bytes = encode opc i ++ rest

/-- R78: under every injective opcode assignment an assigned opcode with any operand bytes decodes to an instruction of its
name, and the bytes that formats N and R ignore do not matter. -/
def Obligations.OperandBytesNeverMakeEncodingIllegal : Prop :=
  ∀ opc : OpcodeMap, opc.Injective → ∀ (op : Op) (o1 o2 o1' o2' : Byte),
    (∃ i, decodeWindow opc ⟨opc op, o1, o2⟩ = .ok i ∧ i.op = op) ∧
    (op.format = .n → decodeWindow opc ⟨opc op, o1, o2⟩ = decodeWindow opc ⟨opc op, o1', o2'⟩) ∧
    (op.format = .r → decodeWindow opc ⟨opc op, o1, o2⟩ = decodeWindow opc ⟨opc op, o1, o2'⟩)

/-! ### The step -/

/-- When the bytes at the program counter decode to an instruction, the step is that instruction's meaning at that state:
the step adds nothing around it (R93: the handler alone moves the pc). -/
def Obligations.StepRunsDecodedInstruction : Prop :=
  ∀ (s : State) (i : Instr), s.status = .running → s.pc ≤ 253 →
    decodeWindow defaultOpc ⟨s.mem.read s.pc, s.mem.read (s.pc + 1), s.mem.read (s.pc + 2)⟩ = .ok i →
    step s = exec i s

/-- R91, R92, R97: the complete step of a running state. A fetch that reaches past 255 raises MemoryAddressOutOfRange before
anything else; then an opcode not in the table raises UnknownInstruction; otherwise the handler runs. -/
def Obligations.StepIsFetchLookupInvoke : Prop :=
  ∀ s : State, s.status = .running →
    (254 ≤ s.pc → step s = .next (faultedFrom s (.memoryAddressOutOfRange (max s.pc 256)))) ∧
    (s.pc ≤ 253 → (∀ op, defaultOpc op ≠ s.mem.read s.pc) →
      step s = .next (faultedFrom s (.unknownInstruction (s.mem.read s.pc)))) ∧
    (∀ op, s.pc ≤ 253 → defaultOpc op = s.mem.read s.pc →
      step s = exec (instrOf op (s.mem.read (s.pc + 1)) (s.mem.read (s.pc + 2))) s)

/-- R73: the semantics is stated by instruction name and holds for every injective opcode assignment. -/
def Obligations.StepUnderAnyOpcodeMapRunsNamedInstruction : Prop :=
  ∀ opc : OpcodeMap, opc.Injective → ∀ (s : State) (op : Op), s.status = .running → s.pc ≤ 253 →
    s.mem.read s.pc = opc op →
    stepWith opc s = exec (instrOf op (s.mem.read (s.pc + 1)) (s.mem.read (s.pc + 2))) s

/-- R140: a running state has exactly one of the three outcomes, and a Halted or Faulted state has no step. -/
def Obligations.RunningStatesStepTerminalStatesDoNot : Prop :=
  (∀ s : State, s.status = .running → ∃ t, step s = .next t ∧
    (t.status = .running ∨ t.status = .halted ∨ ∃ c, t = faultedFrom s c)) ∧
  (∀ s t : State, s.status ≠ .running → step s ≠ .next t)

/-- What the host's step answers in a terminal state. The form of the answer is the model's choice (log entry 5); that there
is no next state is R94, R95. -/
def Obligations.TerminalStatesAnswerNoStep : Prop :=
  (∀ s : State, s.status = .halted → step s = .fault .noStepHalted) ∧
  (∀ (s : State) (r : FaultRecord), s.status = .faulted r → step s = .fault (.noStepFaulted r))

/-- The step input of R6 (b), under every opcode assignment: a running state answers Stepped, Halted or Faulted by the status of
the state it reaches, and no answer is a refusal. R140 says of a terminal state only that it has no step; that it answers its
status and stays as it is, is the model's choice (DESIGN CHOICE, log entry 5). -/
def Obligations.StepInputAnswersByStatus : Prop :=
  ∀ (opc : OpcodeMap) (s : State),
    (s.status = .running → ∃ t, stepWith opc s = .next t ∧
      (t.status = .running → stepInput opc s = .stepped t) ∧ (t.status = .halted → stepInput opc s = .halted t) ∧
      (∀ r, t.status = .faulted r → stepInput opc s = .faulted t r)) ∧
    (s.status = .halted → stepInput opc s = .halted s) ∧
    (∀ r, s.status = .faulted r → stepInput opc s = .faulted s r) ∧
    (∀ r, stepInput opc s ≠ .refused r)

/-- The table word the host places is the instruction the next step runs, and nothing but the three fetched bytes changes
(the host's interface; log entry 4). -/
def Obligations.PlacedTableWordIsStepped : Prop :=
  ∀ (s : State) (nbits w : Nat) (i : Instr), s.status = .running → s.pc ≤ 253 → decodeTableWord nbits w = some i →
    step (s.withFetchWord nbits w) = exec i (s.withFetchWord nbits w) ∧
    (∀ a, a ≠ s.pc → a ≠ s.pc + 1 → a ≠ s.pc + 2 → (s.withFetchWord nbits w).mem.read a = s.mem.read a) ∧
    { s.withFetchWord nbits w with mem := s.mem } = s

/-! ### Faults -/

/-- R142 to R146: the cause codes. -/
def Obligations.CauseCodesAreOneToFive : Prop :=
  ∀ (b : Byte) (k : AluKind) (a n : Nat),
    FaultRecord.code ⟨.unknownInstruction b, n⟩ = 1 ∧ FaultRecord.code ⟨.reservedRegisterWrite b, n⟩ = 2 ∧
    FaultRecord.code ⟨.unsupportedALUOperation k, n⟩ = 3 ∧ FaultRecord.code ⟨.registerIndexOutOfRange b, n⟩ = 4 ∧
    FaultRecord.code ⟨.memoryAddressOutOfRange a, n⟩ = 5

/-- R141, R149: a step that raises changes only the status, and its record's address is the pc at the start of the step. -/
def Obligations.FaultsArePrecise : Prop :=
  ∀ (s t : State) (r : FaultRecord), step s = .next t → t.status = .faulted r →
    r.address = s.pc ∧ (∀ q, t.reg q = s.reg q) ∧ t.pc = s.pc ∧ t.fl = s.fl ∧ t.mem = s.mem ∧ t.out = s.out ∧
    t.faultRecord? = some r

/-- R148: one fault a step, the first check that fails: fetch, lookup, destination, sources in operand order. The sources of
a conditional branch are checked only when it is taken. -/
def Obligations.FirstFailingCheckIsRaised : Prop :=
  ∀ s : State, s.status = .running →
    (254 ≤ s.pc → step s = .next (faultedFrom s (.memoryAddressOutOfRange (max s.pc 256)))) ∧
    (s.pc ≤ 253 → (∀ op, defaultOpc op ≠ s.mem.read s.pc) →
      step s = .next (faultedFrom s (.unknownInstruction (s.mem.read s.pc)))) ∧
    (∀ i : Instr, s.pc ≤ 253 →
      decodeWindow defaultOpc ⟨s.mem.read s.pc, s.mem.read (s.pc + 1), s.mem.read (s.pc + 2)⟩ = .ok i →
      (∀ o, i.destination? = some o → 5 ≤ o.toNat → step s = .next (faultedFrom s (.reservedRegisterWrite o))) ∧
      (∀ o, (∀ d, i.destination? = some d → d.toNat < 5) → (i.op = .jeq → s.fl = .equal) →
        (i.op = .jne → s.fl ≠ .equal) → i.sources.find? (fun x => !sourceLegal x) = some o →
        step s = .next (faultedFrom s (.registerIndexOutOfRange o))))

/-- Every instruction whose operands are legal runs to its effect from every running state, whatever the memory, the flags,
the stack pointer and the registers hold: no value of the data stops it. -/
def Obligations.LegalOperandsRunToEffect : Prop :=
  ∀ (i : Instr) (s : State), s.status = .running → i.wellFormed = true →
    ∃ t, exec i s = .next t ∧ t.status = if i = .hlt then .halted else .running

/-- R26, R27, R143, R145: a handler raises nothing but a reserved destination, or a source byte that names no register. -/
def Obligations.HandlersRaiseOnlyOperandFaults : Prop :=
  ∀ (i : Instr) (s t : State) (r : FaultRecord), s.status = .running → exec i s = .next t → t.status = .faulted r →
    i.wellFormed = false ∧
      ((∃ o, i.destination? = some o ∧ 5 ≤ o.toNat ∧ r = ⟨.reservedRegisterWrite o, s.pc⟩) ∨
        (∃ o ∈ i.sources, 8 ≤ o.toNat ∧ r = ⟨.registerIndexOutOfRange o, s.pc⟩))

/-- R110, R144: the ALU has the two kinds Add and Compare, raises UnsupportedALUOperation on any other, and no step of the
machine ever raises it. That `AluKind.other` stands for the kinds outside the set is the model's choice (log entry 6). -/
def Obligations.AluKindsAreClosed : Prop :=
  (∀ (a b : RegId) (s : State),
    (∃ t, alu .add a b s = .ok t ∧ (t.reg a).toNat = ((s.reg a).toNat + (s.reg b).toNat) % 256 ∧ RegsSameBut [a] s t ∧
      t.fl = s.fl) ∧
    (∃ t, alu .compare a b s = .ok t ∧ t.fl ≠ .unset ∧ RegsSameBut [] s t) ∧
    (∀ k, alu (.other k) a b s = .error (.unsupportedALUOperation (.other k)))) ∧
  (∀ (s t : State) (k : AluKind) (n : Nat), step s = .next t → t.status ≠ .faulted ⟨.unsupportedALUOperation k, n⟩)

/-- R146: MemoryAddressOutOfRange, code 5, is raised by the fetch of exactly the steps with pc >= 254, with target the first
address above 255 that the fetch reads; no handler's own access raises it. -/
def Obligations.MemoryFaultsComeOnlyFromFetch : Prop :=
  (∀ s : State, s.status = .running → 254 ≤ s.pc → ∃ t, step s = .next t ∧
    t.status = .faulted ⟨.memoryAddressOutOfRange (max s.pc 256), s.pc⟩) ∧
  (∀ (s t : State) (a n : Nat), step s = .next t → t.status = .faulted ⟨.memoryAddressOutOfRange a, n⟩ →
    254 ≤ s.pc ∧ a = max s.pc 256) ∧
  (∀ (i : Instr) (s t : State) (a n : Nat), s.status = .running → exec i s = .next t →
    t.status ≠ .faulted ⟨.memoryAddressOutOfRange a, n⟩) ∧
  (∀ a n : Nat, FaultRecord.code ⟨.memoryAddressOutOfRange a, n⟩ = 5)

/-! ### Memory -/

/-- R51, R52: the memory port. Inside 0..255 a read gives the byte stored and a write sets that byte and nothing else;
outside, both raise MemoryAddressOutOfRange. The address Push and Call write to is always inside. -/
def Obligations.MemoryPortReadsLastWrite : Prop :=
  ∀ (s : State) (a : Nat) (v : Byte),
    (a ≤ 255 → memRead s a = .ok (s.mem.read a) ∧
      ∃ t, memWrite s a v = .ok t ∧ memRead t a = .ok v ∧ (∀ b, b ≠ a → memRead t b = memRead s b) ∧
        (∀ q, t.reg q = s.reg q) ∧ t.pc = s.pc ∧ t.fl = s.fl ∧ t.status = s.status ∧ t.out = s.out) ∧
    (256 ≤ a → memRead s a = .error (.memoryAddressOutOfRange a) ∧
      memWrite s a v = .error (.memoryAddressOutOfRange a)) ∧
    (∃ t, memWrite s.decSP (pushAddress s) v = .ok t)

/-- The canonical form is canonical: two memories in it that read the same at every address are the same data. -/
def Obligations.CanonicalMemoriesAreEqualData : Prop :=
  ∀ m m' : Memory, m.wf = true → m'.wf = true → (∀ a, a < 256 → m.read a = m'.read a) → m = m'

/-- R53: the data accesses of each instruction. Push and Call write one byte at the new SP; no other instruction writes
memory. No instruction's other effects depend on memory, but for Pop's and Return's, which depend on the byte at SP alone. -/
def Obligations.DataAccessesAreTheStacks : Prop :=
  ∀ (i : Instr) (s t : State), exec i s = .next t →
    (i.op = .push ∨ i.op = .call → MemSameBut (pushAddress s) s t) ∧
    (i.op ≠ .push → i.op ≠ .call → MemSame s t) ∧
    (∀ m : Memory, (i.op = .pop ∨ i.op = .ret → m.read s.sp.toNat = s.mem.read s.sp.toNat) →
      ∃ u, exec i { s with mem := m } = .next u ∧ { u with mem := t.mem } = t)

/-- R63: a byte pushed where the next instruction's opcode lies is the opcode the next step fetches. -/
def Obligations.PushedByteIsFetchedNext : Prop :=
  ∀ (s : State) (r : Byte) (q : RegId), Names r q → s.pc ≤ 251 → pushAddress s = s.pc + 2 →
    ∃ t, exec (.push r) s = .next t ∧
      ∃ w, fetch t = .ok w ∧ w.opcode = (if q = .sp then s.sp - 1 else s.reg q) ∧
        w.o1 = s.mem.read (s.pc + 3) ∧ w.o2 = s.mem.read (s.pc + 4)

/-! ### The instructions -/

/-- R100: Halt. -/
def Obligations.HaltStopsWithPcUnchanged : Prop :=
  (∀ o1 o2 : Byte, encode defaultOpc .hlt = [0x01] ∧ decodeWindow defaultOpc ⟨0x01, o1, o2⟩ = .ok .hlt) ∧
  (∀ s : State, ∃ t, exec .hlt s = .next t ∧ t.status = .halted ∧ t.pc = s.pc ∧ RegsSameBut [] s t ∧ t.fl = s.fl ∧
    MemSame s t ∧ t.out = s.out) ∧
  (∀ s : State, s.status = .running → 254 ≤ s.pc →
    step s = .next (faultedFrom s (.memoryAddressOutOfRange (max s.pc 256))))

/-- R101: LoadImmediate. -/
def Obligations.LoadImmediateWritesItsValue : Prop :=
  (∀ r v : Byte, encode defaultOpc (.ldi r v) = [0x82, r, v] ∧ decodeWindow defaultOpc ⟨0x82, r, v⟩ = .ok (.ldi r v)) ∧
  (∀ (s : State) (r v : Byte) (d : RegId), Names r d → d.val < 5 →
    ∃ t, exec (.ldi r v) s = .next t ∧ t.reg d = v ∧ t.pc = s.pc + 3 ∧ RegsSameBut [d] s t ∧ t.fl = s.fl ∧
      t.status = s.status ∧ MemSame s t ∧ t.out = s.out) ∧
  (∀ (s : State) (r v : Byte), 5 ≤ r.toNat → exec (.ldi r v) s = .next (faultedFrom s (.reservedRegisterWrite r)))

/-- R102: Print. -/
def Obligations.PrintEmitsRegister : Prop :=
  (∀ r o2 : Byte, encode defaultOpc (.prn r) = [0x47, r] ∧ decodeWindow defaultOpc ⟨0x47, r, o2⟩ = .ok (.prn r)) ∧
  (∀ (s : State) (r : Byte) (q : RegId), Names r q →
    ∃ t, exec (.prn r) s = .next t ∧ t.out = s.out ++ [s.reg q] ∧ t.pc = s.pc + 2 ∧ RegsSameBut [] s t ∧ t.fl = s.fl ∧
      t.status = s.status ∧ MemSame s t) ∧
  (∀ (s : State) (r : Byte), 8 ≤ r.toNat → exec (.prn r) s = .next (faultedFrom s (.registerIndexOutOfRange r)))

/-- R111: Multiply. -/
def Obligations.MultiplyWritesProductModulo256 : Prop :=
  (∀ a b : Byte, encode defaultOpc (.mul a b) = [0xA2, a, b] ∧ decodeWindow defaultOpc ⟨0xA2, a, b⟩ = .ok (.mul a b)) ∧
  (∀ (s : State) (a b : Byte) (d q : RegId), Names a d → d.val < 5 → Names b q →
    ∃ t, exec (.mul a b) s = .next t ∧ (t.reg d).toNat = (s.reg d).toNat * (s.reg q).toNat % 256 ∧ t.pc = s.pc + 3 ∧
      RegsSameBut [d] s t ∧ t.fl = s.fl ∧ t.status = s.status ∧ MemSame s t ∧ t.out = s.out) ∧
  (∀ (s : State) (a b : Byte), 5 ≤ a.toNat → exec (.mul a b) s = .next (faultedFrom s (.reservedRegisterWrite a))) ∧
  (∀ (s : State) (a b : Byte), a.toNat < 5 → 8 ≤ b.toNat →
    exec (.mul a b) s = .next (faultedFrom s (.registerIndexOutOfRange b)))

/-- R112: Add. -/
def Obligations.AddWritesSumModulo256 : Prop :=
  (∀ a b : Byte, encode defaultOpc (.add a b) = [0xA0, a, b] ∧ decodeWindow defaultOpc ⟨0xA0, a, b⟩ = .ok (.add a b)) ∧
  (∀ (s : State) (a b : Byte) (d q : RegId), Names a d → d.val < 5 → Names b q →
    ∃ t, exec (.add a b) s = .next t ∧ (t.reg d).toNat = ((s.reg d).toNat + (s.reg q).toNat) % 256 ∧ t.pc = s.pc + 3 ∧
      RegsSameBut [d] s t ∧ t.fl = s.fl ∧ t.status = s.status ∧ MemSame s t ∧ t.out = s.out) ∧
  (∀ (s : State) (a b : Byte), 5 ≤ a.toNat → exec (.add a b) s = .next (faultedFrom s (.reservedRegisterWrite a))) ∧
  (∀ (s : State) (a b : Byte), a.toNat < 5 → 8 ≤ b.toNat →
    exec (.add a b) s = .next (faultedFrom s (.registerIndexOutOfRange b)))

/-- R113: Compare, for any two registers 0..7, as unsigned bytes. -/
def Obligations.CompareSetsUnsignedOrder : Prop :=
  (∀ a b : Byte, encode defaultOpc (.cmp a b) = [0xA7, a, b] ∧ decodeWindow defaultOpc ⟨0xA7, a, b⟩ = .ok (.cmp a b)) ∧
  (∀ (s : State) (a b : Byte) (p q : RegId), Names a p → Names b q →
    ∃ t, exec (.cmp a b) s = .next t ∧
      ((s.reg p).toNat = (s.reg q).toNat → t.fl = .equal) ∧ ((s.reg q).toNat < (s.reg p).toNat → t.fl = .greater) ∧
      ((s.reg p).toNat < (s.reg q).toNat → t.fl = .less) ∧ t.pc = s.pc + 3 ∧ RegsSameBut [] s t ∧
      t.status = s.status ∧ MemSame s t ∧ t.out = s.out) ∧
  (∀ (s : State) (a b : Byte), 8 ≤ a.toNat → exec (.cmp a b) s = .next (faultedFrom s (.registerIndexOutOfRange a))) ∧
  (∀ (s : State) (a b : Byte), a.toNat < 8 → 8 ≤ b.toNat →
    exec (.cmp a b) s = .next (faultedFrom s (.registerIndexOutOfRange b)))

/-- R120: Push. The value is read after the decrement, so PUSH R7 stores the decremented stack pointer. -/
def Obligations.PushStoresBelowStackPointer : Prop :=
  (∀ r o2 : Byte, encode defaultOpc (.push r) = [0x45, r] ∧ decodeWindow defaultOpc ⟨0x45, r, o2⟩ = .ok (.push r)) ∧
  (∀ (s : State) (r : Byte) (q : RegId), Names r q →
    ∃ t, exec (.push r) s = .next t ∧ t.sp.toNat = (s.sp.toNat + 255) % 256 ∧ pushAddress s = t.sp.toNat ∧
      t.mem.read (pushAddress s) = (if q = .sp then t.sp else s.reg q) ∧ MemSameBut (pushAddress s) s t ∧
      t.pc = s.pc + 2 ∧ RegsSameBut [.sp] s t ∧ t.fl = s.fl ∧ t.status = s.status ∧ t.out = s.out) ∧
  (∀ (s : State) (r : Byte), 8 ≤ r.toNat → exec (.push r) s = .next (faultedFrom s (.registerIndexOutOfRange r)))

/-- R121: Pop. The byte stays in memory. -/
def Obligations.PopLoadsAtStackPointer : Prop :=
  (∀ r o2 : Byte, encode defaultOpc (.pop r) = [0x46, r] ∧ decodeWindow defaultOpc ⟨0x46, r, o2⟩ = .ok (.pop r)) ∧
  (∀ (s : State) (r : Byte) (d : RegId), Names r d → d.val < 5 →
    ∃ t, exec (.pop r) s = .next t ∧ t.reg d = s.mem.read s.sp.toNat ∧ t.sp.toNat = (s.sp.toNat + 1) % 256 ∧
      t.pc = s.pc + 2 ∧ RegsSameBut [d, .sp] s t ∧ t.fl = s.fl ∧ t.status = s.status ∧ MemSame s t ∧ t.out = s.out) ∧
  (∀ (s : State) (r : Byte), 5 ≤ r.toNat → exec (.pop r) s = .next (faultedFrom s (.reservedRegisterWrite r)))

/-- R122: Call, at the addresses where a Call can execute (R54). The target is read after the push, so CALL R7 jumps to the
decremented stack pointer. -/
def Obligations.CallPushesReturnAddressAndJumps : Prop :=
  (∀ r o2 : Byte, encode defaultOpc (.call r) = [0x50, r] ∧ decodeWindow defaultOpc ⟨0x50, r, o2⟩ = .ok (.call r)) ∧
  (∀ (s : State) (r : Byte) (q : RegId), Names r q → s.pc ≤ 253 →
    ∃ t, exec (.call r) s = .next t ∧ t.sp.toNat = (s.sp.toNat + 255) % 256 ∧ pushAddress s = t.sp.toNat ∧
      (t.mem.read (pushAddress s)).toNat = s.pc + 2 ∧ MemSameBut (pushAddress s) s t ∧
      t.pc = (if q = .sp then t.sp else s.reg q).toNat ∧ RegsSameBut [.sp] s t ∧ t.fl = s.fl ∧ t.status = s.status ∧
      t.out = s.out) ∧
  (∀ (s : State) (r : Byte), 8 ≤ r.toNat → exec (.call r) s = .next (faultedFrom s (.registerIndexOutOfRange r)))

/-- R123: Return. -/
def Obligations.ReturnPopsProgramCounter : Prop :=
  (∀ o1 o2 : Byte, encode defaultOpc .ret = [0x11] ∧ decodeWindow defaultOpc ⟨0x11, o1, o2⟩ = .ok .ret) ∧
  (∀ s : State, ∃ t, exec .ret s = .next t ∧ t.pc = (s.mem.read s.sp.toNat).toNat ∧
    t.sp.toNat = (s.sp.toNat + 1) % 256 ∧ RegsSameBut [.sp] s t ∧ t.fl = s.fl ∧ t.status = s.status ∧ MemSame s t ∧
    t.out = s.out)

/-- R130: Jump. A Jump to its own address leaves the state as it is. -/
def Obligations.JumpGoesToRegister : Prop :=
  (∀ r o2 : Byte, encode defaultOpc (.jmp r) = [0x54, r] ∧ decodeWindow defaultOpc ⟨0x54, r, o2⟩ = .ok (.jmp r)) ∧
  (∀ (s : State) (r : Byte) (q : RegId), Names r q →
    ∃ t, exec (.jmp r) s = .next t ∧ t.pc = (s.reg q).toNat ∧ RegsSameBut [] s t ∧ t.fl = s.fl ∧ t.status = s.status ∧
      MemSame s t ∧ t.out = s.out) ∧
  (∀ (s : State) (r : Byte) (q : RegId), Names r q → (s.reg q).toNat = s.pc → exec (.jmp r) s = .next s) ∧
  (∀ (s : State) (r : Byte), 8 ≤ r.toNat → exec (.jmp r) s = .next (faultedFrom s (.registerIndexOutOfRange r)))

/-- R131: JumpIfEqual. Unset, Greater and Less are not taken, and a branch not taken looks at no register. -/
def Obligations.JumpIfEqualBranchesOnEqual : Prop :=
  (∀ r o2 : Byte, encode defaultOpc (.jeq r) = [0x55, r] ∧ decodeWindow defaultOpc ⟨0x55, r, o2⟩ = .ok (.jeq r)) ∧
  (∀ (s : State) (r : Byte) (q : RegId), s.fl = .equal → Names r q →
    ∃ t, exec (.jeq r) s = .next t ∧ t.pc = (s.reg q).toNat ∧ RegsSameBut [] s t ∧ t.fl = s.fl ∧ t.status = s.status ∧
      MemSame s t ∧ t.out = s.out) ∧
  (∀ (s : State) (r : Byte), s.fl = .unset ∨ s.fl = .greater ∨ s.fl = .less →
    ∃ t, exec (.jeq r) s = .next t ∧ t.pc = s.pc + 2 ∧ RegsSameBut [] s t ∧ t.fl = s.fl ∧ t.status = s.status ∧
      MemSame s t ∧ t.out = s.out) ∧
  (∀ (s : State) (r : Byte), s.fl = .equal → 8 ≤ r.toNat →
    exec (.jeq r) s = .next (faultedFrom s (.registerIndexOutOfRange r)))

/-- R132: JumpIfNotEqual. Unset, Greater and Less are taken; only Equal falls through, and then looks at no register. -/
def Obligations.JumpIfNotEqualBranchesOnNotEqual : Prop :=
  (∀ r o2 : Byte, encode defaultOpc (.jne r) = [0x56, r] ∧ decodeWindow defaultOpc ⟨0x56, r, o2⟩ = .ok (.jne r)) ∧
  (∀ (s : State) (r : Byte) (q : RegId), s.fl = .unset ∨ s.fl = .greater ∨ s.fl = .less → Names r q →
    ∃ t, exec (.jne r) s = .next t ∧ t.pc = (s.reg q).toNat ∧ RegsSameBut [] s t ∧ t.fl = s.fl ∧ t.status = s.status ∧
      MemSame s t ∧ t.out = s.out) ∧
  (∀ (s : State) (r : Byte), s.fl = .equal →
    ∃ t, exec (.jne r) s = .next t ∧ t.pc = s.pc + 2 ∧ RegsSameBut [] s t ∧ t.fl = s.fl ∧ t.status = s.status ∧
      MemSame s t ∧ t.out = s.out) ∧
  (∀ (s : State) (r : Byte), s.fl = .unset ∨ s.fl = .greater ∨ s.fl = .less → 8 ≤ r.toNat →
    exec (.jne r) s = .next (faultedFrom s (.registerIndexOutOfRange r)))

/-- R30: how each instruction moves the pc when it completes. -/
def Obligations.PcUpdateOfEveryInstruction : Prop :=
  ∀ (i : Instr) (s t : State), s.status = .running → exec i s = .next t → (∀ r, t.status ≠ .faulted r) →
    match i with
    | .hlt => t.pc = s.pc
    | .ldi _ _ => t.pc = s.pc + 3
    | .mul _ _ => t.pc = s.pc + 3
    | .add _ _ => t.pc = s.pc + 3
    | .cmp _ _ => t.pc = s.pc + 3
    | .prn _ => t.pc = s.pc + 2
    | .push _ => t.pc = s.pc + 2
    | .pop _ => t.pc = s.pc + 2
    | .call r => ∃ q, Names r q ∧ t.pc = (if q = .sp then s.sp - 1 else s.reg q).toNat
    | .ret => t.pc = (s.mem.read s.sp.toNat).toNat
    | .jmp r => ∃ q, Names r q ∧ t.pc = (s.reg q).toNat
    | .jeq r => (s.fl = .equal → ∃ q, Names r q ∧ t.pc = (s.reg q).toNat) ∧ (s.fl ≠ .equal → t.pc = s.pc + 2)
    | .jne r => (s.fl ≠ .equal → ∃ q, Names r q ∧ t.pc = (s.reg q).toNat) ∧ (s.fl = .equal → t.pc = s.pc + 2)

/-! ### Frames -/

/-- LoadImmediate, Multiply and Add: in every next state, a fault's too, only the register of the destination operand, the pc
and the status may differ. -/
def Obligations.LoadAndArithmeticFrame : Prop :=
  ∀ (i : Instr) (s t : State), i.op = .ldi ∨ i.op = .mul ∨ i.op = .add → exec i s = .next t →
    (∀ q, (∀ o, i.destination? = some o → ¬ Names o q) → t.reg q = s.reg q) ∧ t.fl = s.fl ∧ t.out = s.out ∧
    (∀ a, t.mem.read a = s.mem.read a) ∧ (t.status = s.status ∨ ∃ c, t.status = .faulted ⟨c, s.pc⟩)

/-- Compare, Print, Halt and the three jumps: no register and no byte of memory differs; FL only by Compare, the output only
by Print, the status only by Halt or a fault. -/
def Obligations.CompareJumpPrintHaltFrame : Prop :=
  ∀ (i : Instr) (s t : State),
    i.op = .cmp ∨ i.op = .prn ∨ i.op = .hlt ∨ i.op = .jmp ∨ i.op = .jeq ∨ i.op = .jne → exec i s = .next t →
    (∀ q, t.reg q = s.reg q) ∧ (∀ a, t.mem.read a = s.mem.read a) ∧ (i.op ≠ .cmp → t.fl = s.fl) ∧
    (i.op ≠ .prn → t.out = s.out) ∧
    (t.status = s.status ∨ (i.op = .hlt ∧ t.status = .halted) ∨ ∃ c, t.status = .faulted ⟨c, s.pc⟩)

/-- Push and Call, which store: every register but SP, FL and the output are unchanged, and every byte of memory outside the
one address stored to, which is `pushAddress` of the state before. -/
def Obligations.PushCallFrame : Prop :=
  ∀ (i : Instr) (s t : State), i.op = .push ∨ i.op = .call → exec i s = .next t →
    (∀ q, q ≠ .sp → t.reg q = s.reg q) ∧ t.fl = s.fl ∧ t.out = s.out ∧
    (∀ a, pushAddress s = a → ∀ b, b ≠ a → t.mem.read b = s.mem.read b) ∧
    (t.status = s.status ∨ ∃ c, t = faultedFrom s c)

/-- Pop and Return, which load: every register but SP and Pop's destination, FL, the output and every byte of memory are
unchanged. -/
def Obligations.PopReturnFrame : Prop :=
  ∀ (i : Instr) (s t : State), i.op = .pop ∨ i.op = .ret → exec i s = .next t →
    (∀ q, q ≠ .sp → (∀ o, i.destination? = some o → ¬ Names o q) → t.reg q = s.reg q) ∧ t.fl = s.fl ∧ t.out = s.out ∧
    (∀ a, t.mem.read a = s.mem.read a) ∧ (t.status = s.status ∨ ∃ c, t = faultedFrom s c)

/-! ### Rules of the whole machine -/

/-- R22, R23: no step writes the interrupt mask or the interrupt status register. -/
def Obligations.InterruptRegistersNeverWritten : Prop :=
  ∀ s t : State, step s = .next t → t.reg .im = s.reg .im ∧ t.reg .is = s.reg .is

/-- R32: FL is written only by Compare, which always writes Equal, Greater or Less; so Unset, once left, never comes back. -/
def Obligations.FlagStateWrittenOnlyByCompare : Prop :=
  (∀ (i : Instr) (s t : State), exec i s = .next t → i.op ≠ .cmp → t.fl = s.fl) ∧
  (∀ (a b : Byte) (s t : State), s.status = .running → exec (.cmp a b) s = .next t → t.status = .running →
    t.fl = .equal ∨ t.fl = .greater ∨ t.fl = .less) ∧
  (∀ s t : State, step s = .next t → s.fl ≠ .unset → t.fl ≠ .unset)

/-- R24, R25: the stack pointer moves only by Push and Call, down by one, and by Pop and Return, up by one, modulo 256. -/
def Obligations.StackPointerMovesOnlyByStackInstructions : Prop :=
  ∀ (i : Instr) (s t : State), exec i s = .next t →
    t.sp = s.sp ∨ ((i.op = .push ∨ i.op = .call) ∧ t.sp.toNat = (s.sp.toNat + 255) % 256) ∨
      ((i.op = .pop ∨ i.op = .ret) ∧ t.sp.toNat = (s.sp.toNat + 1) % 256)

/-- R35, R94, R159: a step halts exactly when it executes a Halt that could be fetched. -/
def Obligations.OnlyHaltHalts : Prop :=
  ∀ s t : State, step s = .next t → (t.status = .halted ↔ s.pc ≤ 253 ∧ s.mem.read s.pc = 0x01)

/-- R35: the running flag is true at construction and set false only by the halt instruction. That a fault leaves it true is
the model's reading of "only" (DEDUCED, log entry 13). -/
def Obligations.RunningFlagClearedOnlyByHalt : Prop :=
  (∀ resetRegs : ResetRegs, (State.resetWith resetRegs).running = true) ∧
  (∀ (i : Instr) (s t : State), s.status = .running → exec i s = .next t → (t.running = false ↔ i = .hlt)) ∧
  (∀ s t : State, step s = .next t → s.running = true ∧
    (t.running = false ↔ s.pc ≤ 253 ∧ s.mem.read s.pc = 0x01) ∧ (∀ r, t.status = .faulted r → t.running = true))

/-- R37: the output grows only by Print, by one byte at its end, and no instruction reads it. -/
def Obligations.OutputGrowsOnlyByPrint : Prop :=
  ∀ (i : Instr) (s t : State), exec i s = .next t →
    ∃ e : List Byte, t.out = s.out ++ e ∧ (e = [] ∨ ∃ r q, i = .prn r ∧ Names r q ∧ e = [s.reg q]) ∧
      ∀ o : List Byte, exec i { s with out := o } = .next { t with out := o ++ e }

/-- R37, R156: the host's text of the output is one line for each byte, in program order: its decimal value and a newline.
That the newline is one line feed is the model's choice (log entry 9). -/
def Obligations.OutputTextIsDecimalLines : Prop :=
  renderOut [] = "" ∧ ∀ (out : List Byte) (v : Byte), renderOut (out ++ [v]) = renderOut out ++ (toString v.toNat ++ "\n")

/-- R42, R170, R173: the reset values, for every `resetRegs` and every image of at most 256 bytes. That an empty image starts
and that a longer one gives no state is the model's choice (DESIGN CHOICE, log entry 12, after U14 and D17). -/
def Obligations.ResetValuesAndProgramImage : Prop :=
  ∀ (resetRegs : ResetRegs) (image : List Byte),
    (image.length ≤ 256 → ∃ s, boot resetRegs image = some s ∧
      (∀ k : Fin 7, s.reg (k.castSucc) = resetRegs[k]) ∧ s.sp = 0xF4 ∧ s.pc = 0 ∧ s.fl = .unset ∧ s.status = .running ∧
      s.out = [] ∧ (∀ a, (h : a < image.length) → s.mem.read a = image[a]) ∧
      (∀ a, image.length ≤ a → s.mem.read a = 0)) ∧
    (256 < image.length → boot resetRegs image = none)

/-! ### The invariant -/

/-- The invariant holds at reset under every opcode assignment, whatever registers 0 to 6 hold, and so at `State.reset`, whose
zeros there are the model's choice (log entry 2). -/
def Obligations.InvariantHoldsAtReset : Prop :=
  (∀ (opc : OpcodeMap) (resetRegs : ResetRegs), Inv opc (State.resetWith resetRegs)) ∧ Inv defaultOpc State.reset

/-- Every step keeps the invariant: memory in canonical form, the pc in 0..256 (R29), a halted state standing at a Halt that
could be fetched, a fault record that is true of the state it stands in (R141 to R146). This holds under every opcode
assignment, and so of `step`, which takes the default one. -/
def Obligations.StepKeepsInvariant : Prop :=
  (∀ (opc : OpcodeMap) (s t : State), Inv opc s → stepWith opc s = .next t → Inv opc t) ∧
  (∀ s t : State, Inv defaultOpc s → step s = .next t → Inv defaultOpc t)

/-- Under every opcode assignment, from construction with any reset values and any program image, after any number of steps: the
invariant holds, the two interrupt registers hold their reset draw (U5), and what has been output stays output. -/
def Obligations.EveryRunFromBootKeepsInvariant : Prop :=
  ∀ (opc : OpcodeMap) (resetRegs : ResetRegs) (image : List Byte) (s : State), boot resetRegs image = some s →
    ∀ k n : Nat,
      Inv opc (runFor opc k s) ∧ (runFor opc k s).reg .im = resetRegs[5] ∧ (runFor opc k s).reg .is = resetRegs[6] ∧
        ∃ e, (runFor opc (k + n) s).out = (runFor opc k s).out ++ e

/-! ### Runs and sequences -/

/-- R96, under every opcode assignment: a run ends well, ends badly or never ends, only one of the three, and in one state. -/
def Obligations.EveryRunEndsInOneWay : Prop :=
  ∀ opc : OpcodeMap,
    (∀ s : State, NeverEnds opc s ∨ (∃ t, EndsWell opc s t) ∨ ∃ t, EndsBadly opc s t) ∧
    (∀ s t u : State, EndsWell opc s t ∨ EndsBadly opc s t → EndsWell opc s u ∨ EndsBadly opc s u → t = u) ∧
    (∀ s t : State, EndsWell opc s t ∨ EndsBadly opc s t → ¬ NeverEnds opc s)

/-- R130, R73: under every injective opcode assignment a Jump to its own address loops forever. -/
def Obligations.JumpToItselfNeverEnds : Prop :=
  ∀ opc : OpcodeMap, opc.Injective → ∀ (s : State) (q : RegId), s.status = .running → s.pc ≤ 253 →
    s.mem.read s.pc = opc .jmp → Names (s.mem.read (s.pc + 1)) q → (s.reg q).toNat = s.pc → NeverEnds opc s

/-- R120, R121, conflict C10: a Push then a Pop moves the register's value and restores the stack pointer, for every source
but SP itself, whose decremented value is what the Pop gives. -/
def Obligations.PushThenPopMovesValue : Prop :=
  ∀ (s : State) (r r2 : Byte) (q d : RegId), Names r q → Names r2 d → d.val < 5 →
    ∃ t u, exec (.push r) s = .next t ∧ exec (.pop r2) t = .next u ∧
      u.reg d = (if q = .sp then s.sp - 1 else s.reg q) ∧ u.sp = s.sp ∧ u.pc = s.pc + 4 ∧
      RegsSameBut [d] s u ∧ MemSameBut (pushAddress s) s u

/-- R122, R123: whatever runs between a Call and a Return, if the stack pointer and the byte it points at are then as the
Call left them, the Return resumes at the Call's address plus 2 with the stack pointer as before the Call. -/
def Obligations.ReturnResumesAfterCall : Prop :=
  ∀ (s : State) (r : Byte) (q : RegId), Names r q → s.pc ≤ 253 →
    ∃ t, exec (.call r) s = .next t ∧
      ∀ u : State, u.sp = t.sp → u.mem.read u.sp.toNat = t.mem.read t.sp.toNat →
        ∃ v, exec .ret u = .next v ∧ v.pc = s.pc + 2 ∧ v.sp = s.sp

/-- R113, R131, R132: after a Compare, JumpIfEqual branches exactly when the bytes were equal and JumpIfNotEqual exactly when
they were not. -/
def Obligations.CompareThenBranchFollowsEquality : Prop :=
  ∀ (s : State) (a b r : Byte) (p q k : RegId), Names a p → Names b q → Names r k →
    ∃ t u v, exec (.cmp a b) s = .next t ∧ exec (.jeq r) t = .next u ∧ exec (.jne r) t = .next v ∧
      u.pc = (if s.reg p = s.reg q then (s.reg k).toNat else s.pc + 5) ∧
      v.pc = (if s.reg p = s.reg q then s.pc + 5 else (s.reg k).toNat)
end

