-- ==== Sys2Proof/Laws/Decode.lean ====
section
/-! SUPPORT. The dispatch-table lookup and the formats of decoding. -/

namespace Sys2Proof

theorem Op.mem_all (op : Op) : op ∈ Op.all := by
  cases op <;> decide

/-- What the lookup finds is assigned that byte. -/
theorem lookupOp_some {opc : OpcodeMap} {b : Byte} {op : Op} (h : lookupOp opc b = some op) : opc op = b := by
  have := List.find?_some h
  simpa using this

/-- The lookup fails exactly on the bytes no instruction has (30_encoding.md R77). -/
theorem lookupOp_none {opc : OpcodeMap} {b : Byte} : lookupOp opc b = none ↔ ∀ op, opc op ≠ b := by
  simp only [lookupOp, List.find?_eq_none, beq_iff_eq]
  exact ⟨fun h op => h op (Op.mem_all op), fun h op _ => h op⟩

/-- Under an injective assignment the lookup of an instruction's opcode finds it (R73). -/
theorem lookupOp_self {opc : OpcodeMap} (h : opc.Injective) (op : Op) : lookupOp opc (opc op) = some op := by
  cases hl : lookupOp opc (opc op) with
  | none => exact absurd rfl (lookupOp_none.mp hl op)
  | some op' => exact congrArg some (h (lookupOp_some hl))

@[simp] theorem instrOf_op (op : Op) (o1 o2 : Byte) : (instrOf op o1 o2).op = op := by
  cases op <;> rfl

end Sys2Proof
end

