-- ==== Sys2Proof/Laws/State.lean ====
section
/-! SUPPORT. One lemma per field per update of State, so that no later proof unfolds a record update. -/

namespace Sys2Proof.Machine

/-! ### setReg -/

@[simp] theorem State.setReg_pc (s : State) (r : RegId) (v : Byte) : (s.setReg r v).pc = s.pc := rfl
@[simp] theorem State.setReg_fl (s : State) (r : RegId) (v : Byte) : (s.setReg r v).fl = s.fl := rfl
@[simp] theorem State.setReg_status (s : State) (r : RegId) (v : Byte) : (s.setReg r v).status = s.status := rfl
@[simp] theorem State.setReg_mem (s : State) (r : RegId) (v : Byte) : (s.setReg r v).mem = s.mem := rfl
@[simp] theorem State.setReg_out (s : State) (r : RegId) (v : Byte) : (s.setReg r v).out = s.out := rfl

/-! ### advance -/

@[simp] theorem State.advance_regs (s : State) (n : Nat) : (s.advance n).regs = s.regs := rfl
@[simp] theorem State.advance_pc (s : State) (n : Nat) : (s.advance n).pc = s.pc + n := rfl
@[simp] theorem State.advance_fl (s : State) (n : Nat) : (s.advance n).fl = s.fl := rfl
@[simp] theorem State.advance_status (s : State) (n : Nat) : (s.advance n).status = s.status := rfl
@[simp] theorem State.advance_mem (s : State) (n : Nat) : (s.advance n).mem = s.mem := rfl
@[simp] theorem State.advance_out (s : State) (n : Nat) : (s.advance n).out = s.out := rfl
@[simp] theorem State.advance_reg (s : State) (n : Nat) (q : RegId) : (s.advance n).reg q = s.reg q := rfl
@[simp] theorem State.advance_sp (s : State) (n : Nat) : (s.advance n).sp = s.sp := rfl

/-! ### jumpTo -/

@[simp] theorem State.jumpTo_regs (s : State) (v : Byte) : (s.jumpTo v).regs = s.regs := rfl
@[simp] theorem State.jumpTo_pc (s : State) (v : Byte) : (s.jumpTo v).pc = v.toNat := rfl
@[simp] theorem State.jumpTo_fl (s : State) (v : Byte) : (s.jumpTo v).fl = s.fl := rfl
@[simp] theorem State.jumpTo_status (s : State) (v : Byte) : (s.jumpTo v).status = s.status := rfl
@[simp] theorem State.jumpTo_mem (s : State) (v : Byte) : (s.jumpTo v).mem = s.mem := rfl
@[simp] theorem State.jumpTo_out (s : State) (v : Byte) : (s.jumpTo v).out = s.out := rfl
@[simp] theorem State.jumpTo_reg (s : State) (v : Byte) (q : RegId) : (s.jumpTo v).reg q = s.reg q := rfl
@[simp] theorem State.jumpTo_sp (s : State) (v : Byte) : (s.jumpTo v).sp = s.sp := rfl

/-! ### setFl -/

@[simp] theorem State.setFl_regs (s : State) (v : FlagState) : (s.setFl v).regs = s.regs := rfl
@[simp] theorem State.setFl_pc (s : State) (v : FlagState) : (s.setFl v).pc = s.pc := rfl
@[simp] theorem State.setFl_fl (s : State) (v : FlagState) : (s.setFl v).fl = v := rfl
@[simp] theorem State.setFl_status (s : State) (v : FlagState) : (s.setFl v).status = s.status := rfl
@[simp] theorem State.setFl_mem (s : State) (v : FlagState) : (s.setFl v).mem = s.mem := rfl
@[simp] theorem State.setFl_out (s : State) (v : FlagState) : (s.setFl v).out = s.out := rfl
@[simp] theorem State.setFl_reg (s : State) (v : FlagState) (q : RegId) : (s.setFl v).reg q = s.reg q := rfl
@[simp] theorem State.setFl_sp (s : State) (v : FlagState) : (s.setFl v).sp = s.sp := rfl

/-! ### emit -/

@[simp] theorem State.emit_regs (s : State) (v : Byte) : (s.emit v).regs = s.regs := rfl
@[simp] theorem State.emit_pc (s : State) (v : Byte) : (s.emit v).pc = s.pc := rfl
@[simp] theorem State.emit_fl (s : State) (v : Byte) : (s.emit v).fl = s.fl := rfl
@[simp] theorem State.emit_status (s : State) (v : Byte) : (s.emit v).status = s.status := rfl
@[simp] theorem State.emit_mem (s : State) (v : Byte) : (s.emit v).mem = s.mem := rfl
@[simp] theorem State.emit_out (s : State) (v : Byte) : (s.emit v).out = s.out ++ [v] := rfl
@[simp] theorem State.emit_reg (s : State) (v : Byte) (q : RegId) : (s.emit v).reg q = s.reg q := rfl
@[simp] theorem State.emit_sp (s : State) (v : Byte) : (s.emit v).sp = s.sp := rfl

/-! ### setMem -/

@[simp] theorem State.setMem_regs (s : State) (m : Memory) : (s.setMem m).regs = s.regs := rfl
@[simp] theorem State.setMem_pc (s : State) (m : Memory) : (s.setMem m).pc = s.pc := rfl
@[simp] theorem State.setMem_fl (s : State) (m : Memory) : (s.setMem m).fl = s.fl := rfl
@[simp] theorem State.setMem_status (s : State) (m : Memory) : (s.setMem m).status = s.status := rfl
@[simp] theorem State.setMem_mem (s : State) (m : Memory) : (s.setMem m).mem = m := rfl
@[simp] theorem State.setMem_out (s : State) (m : Memory) : (s.setMem m).out = s.out := rfl
@[simp] theorem State.setMem_reg (s : State) (m : Memory) (q : RegId) : (s.setMem m).reg q = s.reg q := rfl
@[simp] theorem State.setMem_sp (s : State) (m : Memory) : (s.setMem m).sp = s.sp := rfl

/-! ### setStatus -/

@[simp] theorem State.setStatus_regs (s : State) (v : RunStatus) : (s.setStatus v).regs = s.regs := rfl
@[simp] theorem State.setStatus_pc (s : State) (v : RunStatus) : (s.setStatus v).pc = s.pc := rfl
@[simp] theorem State.setStatus_fl (s : State) (v : RunStatus) : (s.setStatus v).fl = s.fl := rfl
@[simp] theorem State.setStatus_status (s : State) (v : RunStatus) : (s.setStatus v).status = v := rfl
@[simp] theorem State.setStatus_mem (s : State) (v : RunStatus) : (s.setStatus v).mem = s.mem := rfl
@[simp] theorem State.setStatus_out (s : State) (v : RunStatus) : (s.setStatus v).out = s.out := rfl
@[simp] theorem State.setStatus_reg (s : State) (v : RunStatus) (q : RegId) : (s.setStatus v).reg q = s.reg q := rfl
@[simp] theorem State.setStatus_sp (s : State) (v : RunStatus) : (s.setStatus v).sp = s.sp := rfl

/-! ### decSP -/

@[simp] theorem State.decSP_pc (s : State) : (s.decSP).pc = s.pc := rfl
@[simp] theorem State.decSP_fl (s : State) : (s.decSP).fl = s.fl := rfl
@[simp] theorem State.decSP_status (s : State) : (s.decSP).status = s.status := rfl
@[simp] theorem State.decSP_mem (s : State) : (s.decSP).mem = s.mem := rfl
@[simp] theorem State.decSP_out (s : State) : (s.decSP).out = s.out := rfl

/-! ### incSP -/

@[simp] theorem State.incSP_pc (s : State) : (s.incSP).pc = s.pc := rfl
@[simp] theorem State.incSP_fl (s : State) : (s.incSP).fl = s.fl := rfl
@[simp] theorem State.incSP_status (s : State) : (s.incSP).status = s.status := rfl
@[simp] theorem State.incSP_mem (s : State) : (s.incSP).mem = s.mem := rfl
@[simp] theorem State.incSP_out (s : State) : (s.incSP).out = s.out := rfl
/-! ### The running flag -/

/-- The running flag is false exactly in the status that Halt sets (10_state.md R35). -/
theorem State.running_eq_false (s : State) : s.running = false ↔ s.status = .halted := by
  simp [State.running]

/-- It is true in the statuses Running and Faulted. -/
theorem State.running_eq_true (s : State) : s.running = true ↔ s.status ≠ .halted := by
  simp [State.running]

/-! ### The register file -/

/-- Reading after writing a register: the value at that register, the old value elsewhere. -/
theorem State.reg_setReg (s : State) (r q : RegId) (v : Byte) :
    (s.setReg r v).reg q = if q = r then v else s.reg q := by
  simp only [State.reg, State.setReg, Vector.getElem_set, Fin.ext_iff, eq_comm (a := q.val)]

@[simp] theorem State.reg_setReg_same (s : State) (r : RegId) (v : Byte) : (s.setReg r v).reg r = v := by
  simp [State.reg_setReg]

theorem State.reg_setReg_ne (s : State) (r q : RegId) (v : Byte) (h : q ≠ r) :
    (s.setReg r v).reg q = s.reg q := by
  simp [State.reg_setReg, h]

@[simp] theorem State.decSP_sp (s : State) : s.decSP.sp = s.sp - 1 := by
  simp [State.decSP, State.sp]

@[simp] theorem State.incSP_sp (s : State) : s.incSP.sp = s.sp + 1 := by
  simp [State.incSP, State.sp]

theorem State.decSP_reg (s : State) (q : RegId) : s.decSP.reg q = if q = .sp then s.sp - 1 else s.reg q :=
  s.reg_setReg _ _ _

theorem State.incSP_reg (s : State) (q : RegId) : s.incSP.reg q = if q = .sp then s.sp + 1 else s.reg q :=
  s.reg_setReg _ _ _

/-- Two states with the same registers and the same other fields are equal. -/
theorem State.ext_reg {s t : State} (hr : ∀ q, s.reg q = t.reg q) (hpc : s.pc = t.pc) (hfl : s.fl = t.fl)
    (hst : s.status = t.status) (hm : s.mem = t.mem) (ho : s.out = t.out) : s = t := by
  have hregs : s.regs = t.regs := by
    apply Vector.ext
    intro i hi
    exact hr ⟨i, hi⟩
  cases s
  cases t
  simp_all

end Sys2Proof.Machine
end

