-- ==== Sys2Proof/Laws/Memory.lean ====
section
/-! SUPPORT. Memory: the read and write laws, and the canonical form that every operation keeps. -/

namespace Sys2Proof.Machine

/-! ### Reading after writing -/

theorem Memory.read_erase (m : Memory) (a b : Nat) :
    (Memory.erase m a).read b = if b = a then 0 else m.read b := by
  induction m with
  | nil => simp [Memory.erase, Memory.read]
  | cons c m ih =>
    simp only [Memory.erase, Memory.read]
    by_cases hc : c.1 = a
    · by_cases hb : b = a
      · rw [if_pos hc, ih]
        simp [hb]
      · simp [hc, hb, ih, Ne.symm hb]
    · simp only [hc, if_false, Memory.read, ih]
      by_cases hb : b = a
      · simp [hb, hc]
      · simp [hb]

theorem Memory.read_insert_ne (m : Memory) (a b : Nat) (v : Byte) (h : b ≠ a) :
    (Memory.insert m a v).read b = m.read b := by
  induction m with
  | nil => simp [Memory.insert, Memory.read, Ne.symm h]
  | cons c m ih =>
    simp only [Memory.insert]
    split
    · simp [Memory.read, Ne.symm h]
    · simp [Memory.read, ih]

theorem Memory.read_insert_same (m : Memory) (a : Nat) (v : Byte) (h : ∀ c ∈ m, c.1 ≠ a) :
    (Memory.insert m a v).read a = v := by
  induction m with
  | nil => simp [Memory.insert, Memory.read]
  | cons c m ih =>
    simp only [Memory.insert]
    split
    · simp [Memory.read]
    · simp [Memory.read, h c, ih fun d hd => h d (List.mem_cons_of_mem _ hd)]

theorem Memory.mem_erase {m : Memory} {a : Nat} {c : Host.Cell} (h : c ∈ Memory.erase m a) : c ∈ m ∧ c.1 ≠ a := by
  induction m with
  | nil => simp [Memory.erase] at h
  | cons d m ih =>
    simp only [Memory.erase] at h
    split at h
    · exact ⟨List.mem_cons_of_mem _ (ih h).1, (ih h).2⟩
    · rcases List.mem_cons.mp h with rfl | h
      · exact ⟨List.mem_cons_self, by assumption⟩
      · exact ⟨List.mem_cons_of_mem _ (ih h).1, (ih h).2⟩

/-- A read after a write: the value at the address written, the old byte elsewhere (20_memory.md R52, R58). -/
theorem Memory.read_write (m : Memory) (a b : Nat) (v : Byte) :
    (Memory.write m a v).read b = if b = a then v else m.read b := by
  unfold Memory.write
  split
  · rename_i hv
    simp [Memory.read_erase, hv]
  · by_cases hb : b = a
    · subst hb
      simp [Memory.read_insert_same _ _ _ fun c hc => (Memory.mem_erase hc).2]
    · simp [hb, Memory.read_insert_ne, Memory.read_erase]

@[simp] theorem Memory.read_nil (a : Nat) : Memory.read [] a = 0 := rfl

/-! ### The canonical form -/

theorem Memory.wfFrom_cons (lo : Nat) (c : Host.Cell) (m : Memory) :
    Memory.wfFrom lo (c :: m) = true ↔
      lo ≤ c.1 ∧ c.1 < Config.memorySize ∧ c.2 ≠ 0 ∧ Memory.wfFrom (c.1 + 1) m = true := by
  simp [Memory.wfFrom, and_assoc]

theorem Memory.wfFrom_mono {lo lo' : Nat} {m : Memory} (h : Memory.wfFrom lo m = true) (hle : lo' ≤ lo) :
    Memory.wfFrom lo' m = true := by
  cases m with
  | nil => rfl
  | cons c m =>
    rw [Memory.wfFrom_cons] at h ⊢
    exact ⟨hle.trans h.1, h.2⟩

theorem Memory.wfFrom_erase {lo : Nat} {m : Memory} (h : Memory.wfFrom lo m = true) (a : Nat) :
    Memory.wfFrom lo (Memory.erase m a) = true := by
  induction m generalizing lo with
  | nil => rfl
  | cons c m ih =>
    rw [Memory.wfFrom_cons] at h
    obtain ⟨h1, h2, h3, h4⟩ := h
    simp only [Memory.erase]
    split
    · exact Memory.wfFrom_mono (ih h4) (by omega)
    · rw [Memory.wfFrom_cons]
      exact ⟨h1, h2, h3, ih h4⟩

theorem Memory.wfFrom_insert {lo a : Nat} {v : Byte} {m : Memory} (h : Memory.wfFrom lo m = true)
    (hne : ∀ c ∈ m, c.1 ≠ a) (hlo : lo ≤ a) (ha : a < Config.memorySize) (hv : v ≠ 0) :
    Memory.wfFrom lo (Memory.insert m a v) = true := by
  induction m generalizing lo with
  | nil => exact (Memory.wfFrom_cons lo (a, v) []).mpr ⟨hlo, ha, hv, rfl⟩
  | cons c m ih =>
    rw [Memory.wfFrom_cons] at h
    obtain ⟨h1, h2, h3, h4⟩ := h
    have hca : c.1 ≠ a := hne c List.mem_cons_self
    simp only [Memory.insert]
    split
    · rw [Memory.wfFrom_cons, Memory.wfFrom_cons]
      exact ⟨hlo, ha, hv, by omega, h2, h3, h4⟩
    · rw [Memory.wfFrom_cons]
      exact ⟨h1, h2, h3, ih h4 (fun d hd => hne d (List.mem_cons_of_mem _ hd)) (by omega)⟩

/-- Every write inside the address space keeps the canonical form. -/
theorem Memory.wf_write {m : Memory} (h : m.wf = true) {a : Nat} (ha : a < Config.memorySize) (v : Byte) :
    (Memory.write m a v).wf = true := by
  unfold Memory.write Memory.wf at *
  split
  · exact Memory.wfFrom_erase h a
  · rename_i hv
    exact Memory.wfFrom_insert (Memory.wfFrom_erase h a) (fun c hc => (Memory.mem_erase hc).2) (Nat.zero_le _) ha hv

theorem Memory.wf_nil : Memory.wf [] = true := rfl

theorem State.resetWith_mem_wf (r : ResetRegs) : (State.resetWith r).mem.wf = true := rfl

theorem State.poke_mem_wf {s : State} (h : s.mem.wf = true) (a : Nat) (v : Byte) : (s.poke a v).mem.wf = true := by
  unfold State.poke
  split
  · exact Memory.wf_write h ‹_› v
  · exact h

theorem State.placeWindow_mem_wf {s : State} (h : s.mem.wf = true) (w : Window) : (s.placeWindow w).mem.wf = true :=
  State.poke_mem_wf (State.poke_mem_wf (State.poke_mem_wf h _ _) _ _) _ _

theorem Memory.wf_writeBytes {m : Memory} (h : m.wf = true) {a : Nat} {bs : List Byte}
    (ha : a + bs.length ≤ Config.memorySize) : (Memory.writeBytes m a bs).wf = true := by
  induction bs generalizing m a with
  | nil => exact h
  | cons b bs ih =>
    simp only [List.length_cons] at ha
    exact ih (Memory.wf_write h (by omega) b) (by omega)

/-- A well-formed list from `lo` on reads as 0 below `lo`. -/
theorem Memory.read_lt_of_wfFrom {lo a : Nat} {m : Memory} (h : Memory.wfFrom lo m = true) (ha : a < lo) :
    m.read a = 0 := by
  induction m generalizing lo with
  | nil => rfl
  | cons c m ih =>
    rw [Memory.wfFrom_cons] at h
    have hc : c.1 ≠ a := by omega
    simp only [Memory.read, hc, if_false]
    exact ih h.2.2.2 (by omega)

/-! ### The memory port -/

theorem memRead_ok {s : State} {a : Nat} (h : a < 256) : memRead s a = .ok (s.mem.read a) := by
  simp [memRead, Config.memorySize, h]

theorem memRead_error {s : State} {a : Nat} (h : 256 ≤ a) : memRead s a = .error (.memoryAddressOutOfRange a) := by
  simp [memRead, Config.memorySize, Nat.not_lt.mpr h]

theorem memWrite_ok {s : State} {a : Nat} (v : Byte) (h : a < 256) :
    memWrite s a v = .ok (s.setMem (Memory.write s.mem a v)) := by
  simp [memWrite, Config.memorySize, h]

/-- A byte address is always inside the address space (20_memory.md R52). -/
theorem memRead_byte (s : State) (a : Byte) : memRead s a.toNat = .ok (s.mem.read a.toNat) :=
  memRead_ok a.isLt

theorem memWrite_byte (s : State) (a v : Byte) :
    memWrite s a.toNat v = .ok (s.setMem (Memory.write s.mem a.toNat v)) :=
  memWrite_ok v a.isLt

end Sys2Proof.Machine
end

