-- ==== Sys2Proof/Laws/Ops.lean ====
section
/-! SUPPORT. One lemma for each shared operation that says everything it can do: operands, ALU, faults, fetch, step. -/

namespace Sys2Proof.Machine

/-! ### Operands -/

theorem destReg_ok {o : Byte} (h : o.toNat < 5) : destReg o = .ok ⟨o.toNat, by omega⟩ := by
  simp [destReg, h]

theorem destReg_error {o : Byte} (h : 5 ≤ o.toNat) : destReg o = .error (.reservedRegisterWrite o) := by
  simp [destReg, Nat.not_lt.mpr h]

theorem srcReg_ok {o : Byte} (h : o.toNat < 8) : srcReg o = .ok ⟨o.toNat, h⟩ := by
  simp [srcReg, h]

theorem srcReg_error {o : Byte} (h : 8 ≤ o.toNat) : srcReg o = .error (.registerIndexOutOfRange o) := by
  simp [srcReg, Nat.not_lt.mpr h]

/-- A destination operand either names a general-purpose register or raises. -/
theorem destReg_cases (o : Byte) :
    (∃ d : RegId, o.toNat = d.val ∧ d.val < 5 ∧ destReg o = .ok d) ∨
      (5 ≤ o.toNat ∧ destReg o = .error (.reservedRegisterWrite o)) := by
  by_cases h : o.toNat < 5
  · exact .inl ⟨⟨o.toNat, by omega⟩, rfl, h, destReg_ok h⟩
  · exact .inr ⟨by omega, destReg_error (by omega)⟩

/-- A source operand either names a register or raises. -/
theorem srcReg_cases (o : Byte) :
    (∃ q : RegId, o.toNat = q.val ∧ srcReg o = .ok q) ∨
      (8 ≤ o.toNat ∧ srcReg o = .error (.registerIndexOutOfRange o)) := by
  by_cases h : o.toNat < 8
  · exact .inl ⟨⟨o.toNat, h⟩, rfl, srcReg_ok h⟩
  · exact .inr ⟨by omega, srcReg_error (by omega)⟩

theorem destReg_of_names {o : Byte} {d : RegId} (h : Names o d) (hd : d.val < 5) : destReg o = .ok d := by
  have h' : o.toNat = d.val := h
  rw [destReg_ok (by omega)]
  exact congrArg Except.ok (Fin.ext h')

theorem srcReg_of_names {o : Byte} {q : RegId} (h : Names o q) : srcReg o = .ok q := by
  have h' : o.toNat = q.val := h
  rw [srcReg_ok (by omega)]
  exact congrArg Except.ok (Fin.ext h')

/-! ### Faults -/

theorem raise_eq (c : Cause) (s : State) : raise c s = .next (faultedFrom s c) := rfl

@[simp] theorem complete_ok (s t : State) : complete s (.ok t) = .next t := rfl

@[simp] theorem complete_error (s : State) (c : Cause) : complete s (.error c) = .next (faultedFrom s c) := rfl

/-- A handler's end is always a next state: the one it computed, or the start state faulted. -/
theorem complete_cases {s t : State} {r : Except Cause State} (h : complete s r = .next t) :
    r = .ok t ∨ ∃ c, r = .error c ∧ t = faultedFrom s c := by
  cases r with
  | ok u => exact .inl (by simpa using h)
  | error c => exact .inr ⟨c, rfl, by simpa using h.symm⟩

/-! ### The ALU -/

theorem alu_add (a b : RegId) (s : State) : alu .add a b s = .ok (s.setReg a (s.reg a + s.reg b)) := rfl

theorem alu_compare (a b : RegId) (s : State) :
    alu .compare a b s = .ok (s.setFl (compareFlag (s.reg a) (s.reg b))) := rfl

/-- Compare never writes Unset (10_state.md R31, R32). -/
theorem compareFlag_ne_unset (a b : Byte) : compareFlag a b ≠ .unset := by
  unfold compareFlag
  split
  · simp
  · split <;> simp

/-! ### Fetch -/

theorem fetch_ok {s : State} (h : s.pc ≤ 253) :
    fetch s = .ok ⟨s.mem.read s.pc, s.mem.read (s.pc + 1), s.mem.read (s.pc + 2)⟩ := by
  simp only [fetch, memRead_ok (s := s) (a := s.pc) (by omega), memRead_ok (s := s) (a := s.pc + 1) (by omega),
    memRead_ok (s := s) (a := s.pc + 2) (by omega)]
  rfl

theorem fetch_error {s : State} (h : 254 ≤ s.pc) :
    fetch s = .error (.memoryAddressOutOfRange (max s.pc 256)) := by
  unfold fetch
  by_cases h0 : 256 ≤ s.pc
  · rw [memRead_error h0, Nat.max_eq_left h0]
    rfl
  · rw [memRead_ok (by omega), Nat.max_eq_right (by omega)]
    by_cases h1 : s.pc = 255
    · rw [memRead_error (a := s.pc + 1) (by omega), h1]
      rfl
    · rw [memRead_ok (a := s.pc + 1) (by omega), memRead_error (a := s.pc + 2) (by omega), show s.pc = 254 by omega]
      rfl

/-- What fetch and lookup of a step can do. -/
theorem fetchInstr_cases (opc : OpcodeMap) (s : State) :
    (254 ≤ s.pc ∧ fetchInstr opc s = .error (.memoryAddressOutOfRange (max s.pc 256))) ∨
      (s.pc ≤ 253 ∧ lookupOp opc (s.mem.read s.pc) = none ∧
        fetchInstr opc s = .error (.unknownInstruction (s.mem.read s.pc))) ∨
      (s.pc ≤ 253 ∧ ∃ op, lookupOp opc (s.mem.read s.pc) = some op ∧
        fetchInstr opc s = .ok (instrOf op (s.mem.read (s.pc + 1)) (s.mem.read (s.pc + 2)))) := by
  by_cases h : 254 ≤ s.pc
  · left
    refine ⟨h, ?_⟩
    rw [fetchInstr, fetch_error h]
    rfl
  · right
    have h' : s.pc ≤ 253 := by omega
    have hf : fetchInstr opc s =
        lookupInstr opc ⟨s.mem.read s.pc, s.mem.read (s.pc + 1), s.mem.read (s.pc + 2)⟩ := by
      rw [fetchInstr, fetch_ok h']
      rfl
    cases hl : lookupOp opc (s.mem.read s.pc) with
    | none => exact .inl ⟨h', rfl, by rw [hf]; simp [lookupInstr, decodeWindow, hl]⟩
    | some op => exact .inr ⟨h', op, rfl, by rw [hf]; simp [lookupInstr, decodeWindow, hl]⟩

/-! ### Step -/

theorem stepWith_halted (opc : OpcodeMap) {s : State} (h : s.status = .halted) :
    stepWith opc s = .fault .noStepHalted := by
  simp [stepWith, h]

theorem stepWith_faulted (opc : OpcodeMap) {s : State} {r : FaultRecord} (h : s.status = .faulted r) :
    stepWith opc s = .fault (.noStepFaulted r) := by
  simp [stepWith, h]

theorem stepWith_error (opc : OpcodeMap) {s : State} {c : Cause} (h : s.status = .running)
    (hf : fetchInstr opc s = .error c) : stepWith opc s = .next (faultedFrom s c) := by
  simp [stepWith, h, hf, raise_eq]

theorem stepWith_exec (opc : OpcodeMap) {s : State} {i : Instr} (h : s.status = .running)
    (hf : fetchInstr opc s = .ok i) : stepWith opc s = exec i s := by
  simp [stepWith, h, hf]

end Sys2Proof.Machine
end

