-- ==== Sys2Proof/Laws/Exec.lean ====
section
/-! SUPPORT. What an instruction can do, said once: `exec` either has the instruction's own effect (`Effect`) or raises the
first operand check that fails (`Raises`). Later proofs take `exec_next_cases` apart instead of unfolding the meanings. -/

namespace Sys2Proof.Machine

/-- The state each instruction leaves when it completes. -/
inductive Effect : Instr → State → State → Prop
  | hlt {s} : Effect .hlt s (s.setStatus .halted)
  | ldi {s r v d} (hr : Names r d) (hd : d.val < 5) : Effect (.ldi r v) s ((s.setReg d v).advance 3)
  | prn {s r q} (hr : Names r q) : Effect (.prn r) s ((s.emit (s.reg q)).advance 2)
  | mul {s a b d q} (ha : Names a d) (hd : d.val < 5) (hb : Names b q) :
      Effect (.mul a b) s ((s.setReg d (s.reg d * s.reg q)).advance 3)
  | add {s a b d q} (ha : Names a d) (hd : d.val < 5) (hb : Names b q) :
      Effect (.add a b) s ((s.setReg d (s.reg d + s.reg q)).advance 3)
  | cmp {s a b p q} (ha : Names a p) (hb : Names b q) :
      Effect (.cmp a b) s ((s.setFl (compareFlag (s.reg p) (s.reg q))).advance 3)
  | push {s r q} (hr : Names r q) :
      Effect (.push r) s
        ((s.decSP.setMem (Memory.write s.mem (pushAddress s) (s.decSP.reg q))).advance 2)
  | pop {s r d} (hr : Names r d) (hd : d.val < 5) :
      Effect (.pop r) s ((s.setReg d (s.mem.read s.sp.toNat)).incSP.advance 2)
  | call {s r q} (hr : Names r q) :
      Effect (.call r) s
        ((s.decSP.setMem (Memory.write s.mem (pushAddress s) (returnAddress s))).jumpTo (s.decSP.reg q))
  | ret {s} : Effect .ret s (s.jumpTo (s.mem.read s.sp.toNat)).incSP
  | jmp {s r q} (hr : Names r q) : Effect (.jmp r) s (s.jumpTo (s.reg q))
  | jeqTaken {s r q} (hf : s.fl = .equal) (hr : Names r q) : Effect (.jeq r) s (s.jumpTo (s.reg q))
  | jeqNotTaken {s r} (hf : s.fl ≠ .equal) : Effect (.jeq r) s (s.advance 2)
  | jneTaken {s r q} (hf : s.fl ≠ .equal) (hr : Names r q) : Effect (.jne r) s (s.jumpTo (s.reg q))
  | jneNotTaken {s r} (hf : s.fl = .equal) : Effect (.jne r) s (s.advance 2)

/-- The fault a handler raises: a reserved destination first, then the first illegal source of the registers it reads
(60_exceptions.md R148). -/
inductive Raises : Instr → State → Cause → Prop
  | destination {i s o} (ho : i.destination? = some o) (h5 : 5 ≤ o.toNat) : Raises i s (.reservedRegisterWrite o)
  | source {i s o} (hd : ∀ d, i.destination? = some d → d.toNat < 5) (he : i.op = .jeq → s.fl = .equal)
      (hn : i.op = .jne → s.fl ≠ .equal) (hf : i.sources.find? (fun x => !sourceLegal x) = some o) :
      Raises i s (.registerIndexOutOfRange o)

theorem sourceLegal_of_names {o : Byte} {q : RegId} (h : Names o q) : sourceLegal o = true := by
  simp only [Names] at h
  simp only [sourceLegal, decide_eq_true_eq]
  omega

theorem sourceLegal_false {o : Byte} (h : 8 ≤ o.toNat) : sourceLegal o = false := by
  simp only [sourceLegal, decide_eq_false_iff_not]
  omega

/-- The source a handler raises is one of its operands and names no register. -/
theorem illegal_source {i : Instr} {o : Byte} (h : i.sources.find? (fun x => !sourceLegal x) = some o) :
    o ∈ i.sources ∧ 8 ≤ o.toNat := by
  have hs := List.find?_some h
  simp only [sourceLegal, Bool.not_eq_true', decide_eq_false_iff_not] at hs
  exact ⟨List.mem_of_find?_eq_some h, by omega⟩

/-! ### The shared operations inside the handlers -/

theorem branchTo_cases (r : Byte) (s : State) :
    (∃ q, Names r q ∧ branchTo r s = .ok (s.jumpTo (s.reg q))) ∨
      (8 ≤ r.toNat ∧ branchTo r s = .error (.registerIndexOutOfRange r)) := by
  rcases srcReg_cases r with ⟨q, hq, h⟩ | ⟨h8, h⟩
  · exact .inl ⟨q, hq, by simp only [branchTo, h]; rfl⟩
  · exact .inr ⟨h8, by simp only [branchTo, h]; rfl⟩

/-- The store of Push and Call never faults: the stack pointer is a byte (20_memory.md R52). -/
theorem memWrite_push (s : State) (v : Byte) :
    memWrite s.decSP (pushAddress s) v = .ok (s.decSP.setMem (Memory.write s.mem (pushAddress s) v)) :=
  memWrite_ok v (BitVec.isLt _)

theorem exceptBind_ok {α β : Type} (a : α) (f : α → Except Cause β) : (Except.ok a >>= f) = f a := rfl

theorem exceptBind_error {α β : Type} (c : Cause) (f : α → Except Cause β) :
    (Except.error c >>= f) = Except.error c := rfl

theorem exceptPure_eq {α : Type} (a : α) : (pure a : Except Cause α) = Except.ok a := rfl

/-! ### The cases of `exec` -/

/-- Every instruction, at every state, either has its effect or raises. -/
theorem exec_cases (i : Instr) (s : State) :
    (∃ t, exec i s = .next t ∧ Effect i s t) ∨ (∃ c, exec i s = .next (faultedFrom s c) ∧ Raises i s c) := by
  cases i with
  | hlt => exact .inl ⟨_, rfl, .hlt⟩
  | ldi r v =>
    rcases destReg_cases r with ⟨d, hr, h5, h⟩ | ⟨h5, h⟩
    · refine .inl ⟨_, ?_, .ldi hr h5⟩
      simp only [exec, execLdi, h, exceptBind_ok, exceptPure_eq, complete_ok]
    · refine .inr ⟨_, ?_, .destination rfl h5⟩
      simp only [exec, execLdi, h, exceptBind_error, complete_error]
  | prn r =>
    rcases srcReg_cases r with ⟨q, hr, h⟩ | ⟨h8, h⟩
    · refine .inl ⟨_, ?_, .prn hr⟩
      simp only [exec, execPrn, h, exceptBind_ok, exceptPure_eq, complete_ok]
    · refine .inr ⟨_, ?_, .source (o := r) ?_ ?_ ?_ ?_⟩
      · simp only [exec, execPrn, h, exceptBind_error, complete_error]
      all_goals simp [Instr.destination?, Instr.op, Instr.sources, sourceLegal_false h8]
  | mul a b =>
    rcases destReg_cases a with ⟨d, ha, h5, h⟩ | ⟨h5, h⟩
    · rcases srcReg_cases b with ⟨q, hb, h'⟩ | ⟨h8, h'⟩
      · refine .inl ⟨_, ?_, .mul ha h5 hb⟩
        simp only [exec, execMul, h, h', exceptBind_ok, exceptPure_eq, complete_ok]
      · refine .inr ⟨_, ?_, .source (o := b) ?_ ?_ ?_ ?_⟩
        · simp only [exec, execMul, h, h', exceptBind_ok, exceptBind_error, complete_error]
        all_goals simp [Instr.destination?, Instr.op, Instr.sources, sourceLegal_false h8, sourceLegal_of_names ha]
        omega
    · refine .inr ⟨_, ?_, .destination rfl h5⟩
      simp only [exec, execMul, h, exceptBind_error, complete_error]
  | add a b =>
    rcases destReg_cases a with ⟨d, ha, h5, h⟩ | ⟨h5, h⟩
    · rcases srcReg_cases b with ⟨q, hb, h'⟩ | ⟨h8, h'⟩
      · refine .inl ⟨_, ?_, .add ha h5 hb⟩
        simp only [exec, execAdd, h, h', alu_add, exceptBind_ok, exceptPure_eq, complete_ok]
      · refine .inr ⟨_, ?_, .source (o := b) ?_ ?_ ?_ ?_⟩
        · simp only [exec, execAdd, h, h', exceptBind_ok, exceptBind_error, complete_error]
        all_goals simp [Instr.destination?, Instr.op, Instr.sources, sourceLegal_false h8, sourceLegal_of_names ha]
        omega
    · refine .inr ⟨_, ?_, .destination rfl h5⟩
      simp only [exec, execAdd, h, exceptBind_error, complete_error]
  | cmp a b =>
    rcases srcReg_cases a with ⟨p, ha, h⟩ | ⟨h8, h⟩
    · rcases srcReg_cases b with ⟨q, hb, h'⟩ | ⟨h8, h'⟩
      · refine .inl ⟨_, ?_, .cmp ha hb⟩
        simp only [exec, execCmp, h, h', alu_compare, exceptBind_ok, exceptPure_eq, complete_ok]
      · refine .inr ⟨_, ?_, .source (o := b) ?_ ?_ ?_ ?_⟩
        · simp only [exec, execCmp, h, h', exceptBind_ok, exceptBind_error, complete_error]
        all_goals simp [Instr.destination?, Instr.op, Instr.sources, sourceLegal_false h8, sourceLegal_of_names ha]
    · refine .inr ⟨_, ?_, .source (o := a) ?_ ?_ ?_ ?_⟩
      · simp only [exec, execCmp, h, exceptBind_error, complete_error]
      all_goals simp [Instr.destination?, Instr.op, Instr.sources, sourceLegal_false h8]
  | push r =>
    rcases srcReg_cases r with ⟨q, hr, h⟩ | ⟨h8, h⟩
    · refine .inl ⟨_, ?_, .push hr⟩
      simp only [exec, execPush, h, memWrite_push, exceptBind_ok, exceptPure_eq, complete_ok]
    · refine .inr ⟨_, ?_, .source (o := r) ?_ ?_ ?_ ?_⟩
      · simp only [exec, execPush, h, exceptBind_error, complete_error]
      all_goals simp [Instr.destination?, Instr.op, Instr.sources, sourceLegal_false h8]
  | pop r =>
    rcases destReg_cases r with ⟨d, hr, h5, h⟩ | ⟨h5, h⟩
    · refine .inl ⟨_, ?_, .pop hr h5⟩
      simp only [exec, execPop, h, memRead_byte, exceptBind_ok, exceptPure_eq, complete_ok]
    · refine .inr ⟨_, ?_, .destination rfl h5⟩
      simp only [exec, execPop, h, exceptBind_error, complete_error]
  | call r =>
    rcases srcReg_cases r with ⟨q, hr, h⟩ | ⟨h8, h⟩
    · refine .inl ⟨_, ?_, .call hr⟩
      simp only [exec, execCall, h, memWrite_push, exceptBind_ok, exceptPure_eq, complete_ok]
      rfl
    · refine .inr ⟨_, ?_, .source (o := r) ?_ ?_ ?_ ?_⟩
      · simp only [exec, execCall, h, exceptBind_error, complete_error]
      all_goals simp [Instr.destination?, Instr.op, Instr.sources, sourceLegal_false h8]
  | ret =>
    refine .inl ⟨_, ?_, .ret⟩
    simp only [exec, execRet, memRead_byte, exceptBind_ok, exceptPure_eq, complete_ok]
  | jmp r =>
    rcases branchTo_cases r s with ⟨q, hr, h⟩ | ⟨h8, h⟩
    · refine .inl ⟨_, ?_, .jmp hr⟩
      simp only [exec, execJmp, h, complete_ok]
    · refine .inr ⟨_, ?_, .source (o := r) ?_ ?_ ?_ ?_⟩
      · simp only [exec, execJmp, h, complete_error]
      all_goals simp [Instr.destination?, Instr.op, Instr.sources, sourceLegal_false h8]
  | jeq r =>
    by_cases hf : s.fl = .equal
    · rcases branchTo_cases r s with ⟨q, hr, h⟩ | ⟨h8, h⟩
      · refine .inl ⟨_, ?_, .jeqTaken hf hr⟩
        simp only [exec, execJeq, if_pos hf, h, complete_ok]
      · refine .inr ⟨_, ?_, .source (o := r) ?_ ?_ ?_ ?_⟩
        · simp only [exec, execJeq, if_pos hf, h, complete_error]
        all_goals simp [Instr.destination?, Instr.op, Instr.sources, sourceLegal_false h8, hf]
    · refine .inl ⟨_, ?_, .jeqNotTaken hf⟩
      simp only [exec, execJeq, if_neg hf, complete_ok]
  | jne r =>
    by_cases hf : s.fl = .equal
    · refine .inl ⟨_, ?_, .jneNotTaken hf⟩
      simp only [exec, execJne, if_neg (not_not.mpr hf), complete_ok]
    · rcases branchTo_cases r s with ⟨q, hr, h⟩ | ⟨h8, h⟩
      · refine .inl ⟨_, ?_, .jneTaken hf hr⟩
        simp only [exec, execJne, if_pos hf, h, complete_ok]
      · refine .inr ⟨_, ?_, .source (o := r) ?_ ?_ ?_ ?_⟩
        · simp only [exec, execJne, if_pos hf, h, complete_error]
        all_goals simp [Instr.destination?, Instr.op, Instr.sources, sourceLegal_false h8, hf]

/-- The inversion lemma of `exec`: a next state is the instruction's effect or the start state faulted. -/
theorem exec_next_cases {i : Instr} {s t : State} (h : exec i s = .next t) :
    Effect i s t ∨ ∃ c, t = faultedFrom s c ∧ Raises i s c := by
  rcases exec_cases i s with ⟨u, hu, he⟩ | ⟨c, hc, hr⟩
  · obtain rfl : u = t := by simpa [hu] using h
    exact .inl he
  · exact .inr ⟨c, by simpa [hc] using h.symm, hr⟩

/-- The status after an effect: Halt halts, everything else leaves it. -/
theorem Effect.status_eq {i : Instr} {s t : State} (h : Effect i s t) :
    t.status = if i = .hlt then .halted else s.status := by
  cases h <;> rfl

/-! ### The converses: an effect is what `exec` answers, and so is a raise -/

theorem Names.unique {o : Byte} {p q : RegId} (hp : Names o p) (hq : Names o q) : p = q :=
  Fin.ext (hp.symm.trans hq)

/-- An instruction that has an effect raises nothing. -/
theorem Effect.not_raises {i : Instr} {s t : State} {c : Cause} (h : Effect i s t) (hr : Raises i s c) : False := by
  cases hr with
  | destination ho h5 =>
    cases h <;> simp_all only [Instr.destination?, Names, Option.some.injEq, reduceCtorEq] <;> omega
  | source hd he hn hf =>
    cases h with
    | hlt => simp [Instr.sources] at hf
    | ldi => simp [Instr.sources] at hf
    | prn hq => simp [Instr.sources, sourceLegal_of_names hq] at hf
    | mul ha _ hb => simp [Instr.sources, sourceLegal_of_names ha, sourceLegal_of_names hb] at hf
    | add ha _ hb => simp [Instr.sources, sourceLegal_of_names ha, sourceLegal_of_names hb] at hf
    | cmp ha hb => simp [Instr.sources, sourceLegal_of_names ha, sourceLegal_of_names hb] at hf
    | push hq => simp [Instr.sources, sourceLegal_of_names hq] at hf
    | pop => simp [Instr.sources] at hf
    | call hq => simp [Instr.sources, sourceLegal_of_names hq] at hf
    | ret => simp [Instr.sources] at hf
    | jmp hq => simp [Instr.sources, sourceLegal_of_names hq] at hf
    | jeqTaken _ hq => simp [Instr.sources, sourceLegal_of_names hq] at hf
    | jeqNotTaken hf => exact hf (he rfl)
    | jneTaken _ hq => simp [Instr.sources, sourceLegal_of_names hq] at hf
    | jneNotTaken hf => exact hn rfl hf

/-- An instruction has at most one effect. -/
theorem Effect.unique {i : Instr} {s t u : State} (h : Effect i s t) (h' : Effect i s u) : t = u := by
  cases h with
  | hlt => cases h'; rfl
  | ldi hr _ => cases h' with | ldi hr' _ => cases hr.unique hr'; rfl
  | prn hr => cases h' with | prn hr' => cases hr.unique hr'; rfl
  | mul ha _ hb => cases h' with | mul ha' _ hb' => cases ha.unique ha'; cases hb.unique hb'; rfl
  | add ha _ hb => cases h' with | add ha' _ hb' => cases ha.unique ha'; cases hb.unique hb'; rfl
  | cmp ha hb => cases h' with | cmp ha' hb' => cases ha.unique ha'; cases hb.unique hb'; rfl
  | push hr => cases h' with | push hr' => cases hr.unique hr'; rfl
  | pop hr _ => cases h' with | pop hr' _ => cases hr.unique hr'; rfl
  | call hr => cases h' with | call hr' => cases hr.unique hr'; rfl
  | ret => cases h'; rfl
  | jmp hr => cases h' with | jmp hr' => cases hr.unique hr'; rfl
  | jeqTaken hf hr => cases h' with
    | jeqTaken _ hr' => cases hr.unique hr'; rfl
    | jeqNotTaken hf' => exact absurd hf hf'
  | jeqNotTaken hf => cases h' with
    | jeqTaken hf' _ => exact absurd hf' hf
    | jeqNotTaken _ => rfl
  | jneTaken hf hr => cases h' with
    | jneTaken _ hr' => cases hr.unique hr'; rfl
    | jneNotTaken hf' => exact absurd hf' hf
  | jneNotTaken hf => cases h' with
    | jneTaken hf' _ => exact absurd hf hf'
    | jneNotTaken _ => rfl

/-- A handler raises at most one cause. -/
theorem Raises.unique {i : Instr} {s : State} {c c' : Cause} (h : Raises i s c) (h' : Raises i s c') : c = c' := by
  cases h with
  | destination ho h5 => cases h' with
    | destination ho' _ => simp_all
    | source hd' _ _ _ => exact absurd (hd' _ ho) (by omega)
  | source hd _ _ hf => cases h' with
    | destination ho' h5' => exact absurd (hd _ ho') (by omega)
    | source _ _ _ hf' => simp_all

theorem Effect.exec_eq {i : Instr} {s t : State} (h : Effect i s t) : exec i s = .next t := by
  rcases exec_cases i s with ⟨u, hu, he⟩ | ⟨c, _, hr⟩
  · rw [hu, he.unique h]
  · exact (h.not_raises hr).elim

theorem Raises.exec_eq {i : Instr} {s : State} {c : Cause} (h : Raises i s c) : exec i s = .next (faultedFrom s c) := by
  rcases exec_cases i s with ⟨t, _, he⟩ | ⟨c', hc, hr⟩
  · exact (he.not_raises h).elim
  · rw [hc, hr.unique h]

end Sys2Proof.Machine
end

