-- ==== Sys2Proof/Laws/PerInstr.lean ====
section
/-! SUPPORT. Facts of every instruction as syntax, one lemma per constructor. Family `EncodedLength`: an instruction's
encoding has the length its name gives it (30_encoding.md R70, R79). -/

namespace Sys2Proof.Laws.EncodedLength

/-- Under every opcode assignment the encoding has the instruction's length, which is 1, 2 or 3, and begins with the opcode
of its name. -/
def Statement (i : Instr) : Prop :=
  ∀ opc : OpcodeMap, (encode opc i).length = i.length ∧ 1 ≤ i.length ∧ i.length ≤ 3 ∧ (encode opc i).head? = some (opc i.op)

/-- The shape of every proof below: the length is the format's, the rest is by computation. -/
theorem of_length {i : Instr} (hl : (operandBytes i).length + 1 = i.length) : Statement i := fun opc => by
  have h3 : 1 ≤ i.length ∧ i.length ≤ 3 := by
    unfold Instr.length
    cases i.op.format <;> decide
  exact ⟨hl, h3.1, h3.2, rfl⟩

theorem hlt : Statement .hlt := of_length rfl
theorem ldi (r i : Byte) : Statement (.ldi r i) := of_length rfl
theorem prn (r : Byte) : Statement (.prn r) := of_length rfl
theorem mul (a b : Byte) : Statement (.mul a b) := of_length rfl
theorem add (a b : Byte) : Statement (.add a b) := of_length rfl
theorem cmp (a b : Byte) : Statement (.cmp a b) := of_length rfl
theorem push (r : Byte) : Statement (.push r) := of_length rfl
theorem pop (r : Byte) : Statement (.pop r) := of_length rfl
theorem call (r : Byte) : Statement (.call r) := of_length rfl
theorem ret : Statement .ret := of_length rfl
theorem jmp (r : Byte) : Statement (.jmp r) := of_length rfl
theorem jeq (r : Byte) : Statement (.jeq r) := of_length rfl
theorem jne (r : Byte) : Statement (.jne r) := of_length rfl

end Sys2Proof.Laws.EncodedLength
end

