-- ==== Sys2Proof/Laws/Step.lean ====
section
/-! SUPPORT. What a step can do, said once: a running state raises a fetch fault, raises an unknown opcode, or runs the
instruction fetched. -/

namespace Sys2Proof.Machine

/-- The instruction a state's three fetched bytes make with an opcode's name. -/
abbrev fetched (op : Op) (s : State) : Instr := instrOf op (s.mem.read (s.pc + 1)) (s.mem.read (s.pc + 2))

/-- Only a running state has a next state (40_engine.md R94, R95). -/
theorem running_of_stepWith {opc : OpcodeMap} {s t : State} (h : stepWith opc s = .next t) : s.status = .running := by
  cases hs : s.status with
  | running => rfl
  | halted => simp [stepWith_halted opc hs] at h
  | faulted r => simp [stepWith_faulted opc hs] at h

/-- The inversion lemma of the step. -/
theorem stepWith_next_cases {opc : OpcodeMap} {s t : State} (h : stepWith opc s = .next t) :
    s.status = .running ∧
      ((254 ≤ s.pc ∧ t = faultedFrom s (.memoryAddressOutOfRange (max s.pc 256))) ∨
        (s.pc ≤ 253 ∧ (∀ op, opc op ≠ s.mem.read s.pc) ∧
          t = faultedFrom s (.unknownInstruction (s.mem.read s.pc))) ∨
        (s.pc ≤ 253 ∧ ∃ op, opc op = s.mem.read s.pc ∧ exec (fetched op s) s = .next t)) := by
  have hs := running_of_stepWith h
  refine ⟨hs, ?_⟩
  rcases fetchInstr_cases opc s with ⟨hp, hf⟩ | ⟨hp, hl, hf⟩ | ⟨hp, op, hl, hf⟩
  · rw [stepWith_error opc hs hf] at h
    exact .inl ⟨hp, by simpa using h.symm⟩
  · rw [stepWith_error opc hs hf] at h
    exact .inr (.inl ⟨hp, lookupOp_none.mp hl, by simpa using h.symm⟩)
  · rw [stepWith_exec opc hs hf] at h
    exact .inr (.inr ⟨hp, op, lookupOp_some hl, h⟩)

end Sys2Proof.Machine
end

