-- ==== Sys2Proof/Laws/Run.lean ====
section
/-! SUPPORT. The run loop, under every opcode assignment: one more step, the stop at a terminal state, and the induction that
every fact about runs goes through. -/

namespace Sys2Proof.Machine

variable {opc : OpcodeMap}

@[simp] theorem runFor_zero (s : State) : runFor opc 0 s = s := rfl

theorem runFor_succ_of_next {s t : State} (h : stepWith opc s = .next t) (k : Nat) :
    runFor opc (k + 1) s = runFor opc k t := by
  simp only [runFor, h]

/-- Where no step answers a next state, the loop stays. -/
theorem runFor_of_no_next {s : State} (h : ∀ t, stepWith opc s ≠ .next t) (k : Nat) : runFor opc k s = s := by
  cases k with
  | zero => rfl
  | succ k =>
    cases hs : stepWith opc s with
    | next t => exact absurd hs (h t)
    | fault f => simp only [runFor, hs]
    | refused r => simp only [runFor, hs]

/-- The loop ends when the status is no longer Running (40_engine.md R90). -/
theorem runFor_of_not_running {s : State} (h : s.status ≠ .running) (k : Nat) : runFor opc k s = s :=
  runFor_of_no_next (fun _ ht => h (running_of_stepWith ht)) k

theorem runFor_add (k n : Nat) (s : State) : runFor opc (k + n) s = runFor opc n (runFor opc k s) := by
  induction k generalizing s with
  | zero => simp
  | succ k ih =>
    by_cases h : ∃ t, stepWith opc s = .next t
    · obtain ⟨t, ht⟩ := h
      rw [Nat.succ_add, runFor_succ_of_next ht, runFor_succ_of_next ht, ih]
    · have hn : ∀ t, stepWith opc s ≠ .next t := fun t ht => h ⟨t, ht⟩
      simp only [runFor_of_no_next hn]

/-- A relation that holds of every state with itself and is carried back over a step holds of a state and where its run
stands. -/
theorem runFor_induction {P : State → State → Prop} (refl : ∀ s, P s s)
    (step : ∀ s t u, stepWith opc s = .next t → P t u → P s u) (k : Nat) (s : State) : P s (runFor opc k s) := by
  induction k generalizing s with
  | zero => exact refl s
  | succ k ih =>
    by_cases h : ∃ t, stepWith opc s = .next t
    · obtain ⟨t, ht⟩ := h
      rw [runFor_succ_of_next ht]
      exact step s t _ ht (ih t)
    · rw [runFor_of_no_next fun t ht => h ⟨t, ht⟩]
      exact refl s

end Sys2Proof.Machine
end

