-- ==== Sys2Proof/Tests/Slice0.lean ====
section
/-! SUPPORT. The model's own tests. Expected results are the vectors of spec/95_test_vectors.md and the examples of the
instruction rules; words are written out from the encodings of 30_encoding.md. Then, for each statement with hypotheses, a
witness that meets them. -/

namespace Sys2Proof.Tests

open Sys2Proof.Machine

/-- A state to test on: the reset state with registers R0..R4, IM, IS = 3, 4, 200, 0x0C, 255, 0x55, 0x66 and SP = 0xF4. -/
def base : State := State.resetWith #v[3, 4, 200, 0x0C, 255, 0x55, 0x66]

/-- `base` with the pc at an address and bytes written from there. -/
def run (pc : Nat) (bytes : List Byte) : State := { base with pc := pc, mem := Memory.writeBytes [] pc bytes }

/-- `run` with some register set. -/
def runReg (pc : Nat) (bytes : List Byte) (r : RegId) (v : Byte) : State := (run pc bytes).setReg r v

/-- A view of the next state of a step. -/
def after {α : Type} (s : State) (f : State → α) : Option α :=
  match step s with
  | .next t => some (f t)
  | .fault _ => none
  | .refused _ => none

/-! ### WellFormed: each check refuses an ill-formed term (10_state.md R27) -/

theorem test_wf_accepts_ldi : (Instr.ldi 4 255).wellFormed = true := by decide
theorem test_wf_accepts_cmp_sp : (Instr.cmp 7 5).wellFormed = true := by decide
theorem test_wf_refuses_ldi_destination : (Instr.ldi 5 0).wellFormed = false := by decide
theorem test_wf_refuses_mul_destination : (Instr.mul 7 0).wellFormed = false := by decide
theorem test_wf_refuses_add_source : (Instr.add 0 8).wellFormed = false := by decide
theorem test_wf_refuses_pop_destination : (Instr.pop 7).wellFormed = false := by decide
theorem test_wf_refuses_cmp_second : (Instr.cmp 0 8).wellFormed = false := by decide
theorem test_wf_refuses_prn_source : (Instr.prn 8).wellFormed = false := by decide
theorem test_wf_refuses_push_source : (Instr.push 255).wellFormed = false := by decide
theorem test_wf_refuses_call_source : (Instr.call 8).wellFormed = false := by decide
theorem test_wf_refuses_jmp_source : (Instr.jmp 8).wellFormed = false := by decide
theorem test_wf_refuses_jeq_source : (Instr.jeq 9).wellFormed = false := by decide
theorem test_wf_refuses_jne_source : (Instr.jne 9).wellFormed = false := by decide

/-! ### Decoding: words written out from R71 and R72, the first byte in the low bits -/

theorem test_decode_hlt : decodeTableWord 8 0b00000001 = some .hlt := by decide
theorem test_decode_ldi : decodeTableWord 24 0b11111111_00000100_10000010 = some (.ldi 4 255) := by decide
theorem test_decode_prn : decodeTableWord 16 0b00000111_01000111 = some (.prn 7) := by decide
theorem test_decode_mul : decodeTableWord 24 0b00000001_00000000_10100010 = some (.mul 0 1) := by decide
theorem test_decode_add : decodeTableWord 24 0b00000001_00000010_10100000 = some (.add 2 1) := by decide
theorem test_decode_cmp : decodeTableWord 24 0b00000010_00000000_10100111 = some (.cmp 0 2) := by decide
theorem test_decode_push : decodeTableWord 16 0b00000011_01000101 = some (.push 3) := by decide
theorem test_decode_pop : decodeTableWord 16 0b00000001_01000110 = some (.pop 1) := by decide
theorem test_decode_call : decodeTableWord 16 0b00000001_01010000 = some (.call 1) := by decide
theorem test_decode_ret : decodeTableWord 8 0b00010001 = some .ret := by decide
theorem test_decode_jmp : decodeTableWord 16 0b00000011_01010100 = some (.jmp 3) := by decide
theorem test_decode_jeq : decodeTableWord 16 0b00001000_01010101 = some (.jeq 8) := by decide
theorem test_decode_jne : decodeTableWord 16 0b00000100_01010110 = some (.jne 4) := by decide
theorem test_decode_zero_unknown : decodeTableWord 8 0b00000000 = none := by decide
theorem test_decode_bits_above_ignored : decodeTableWord 8 0b00000101_00010001 = some .ret := by decide
theorem test_decode_list_truncated : decode defaultOpc [0x82, 0x00] = .error .truncated := rfl
theorem test_decode_list_rest : decode defaultOpc [0x47, 0x00, 0x01] = .ok (.prn 0, [0x01]) := rfl
theorem test_mnemonics_are_thirteen : (Op.all.map Op.mnemonic).Nodup ∧ Op.all.length = 13 := by decide

/-! ### One step of each instruction (95_test_vectors.md section 2, rules R100 to R132) -/

theorem test_hlt_keeps_pc : after (run 253 [0x01]) (fun t => (t.status, t.pc)) = some (.halted, 253) := by decide
theorem test_hlt_at_254_faults :
    after (run 254 [0x01]) State.status = some (.faulted ⟨.memoryAddressOutOfRange 256, 254⟩) := by decide
theorem test_ldi_at_253 : after (run 253 [0x82, 0x00, 0xFF]) (fun t => (t.reg 0, t.pc)) = some (255, 256) := by decide
theorem test_ldi_reserved :
    after (run 0 [0x82, 0x05, 0x08]) (fun t => (t.status, t.reg 5)) =
      some (.faulted ⟨.reservedRegisterWrite 5, 0⟩, 0x55) := by decide
theorem test_prn_sp : after (run 0 [0x47, 0x07]) (fun t => (t.out, t.pc)) = some ([244], 2) := by decide
theorem test_prn_no_register :
    after (run 0 [0x47, 0x08]) (fun t => (t.status, t.out)) =
      some (.faulted ⟨.registerIndexOutOfRange 8, 0⟩, []) := by decide
theorem test_mul_wraps : after (runReg 0 [0xA2, 0x00, 0x01] 1 86) (fun t => (t.reg 0, t.pc)) = some (2, 3) := by decide
theorem test_mul_destination_first :
    after (run 0 [0xA2, 0x09, 0x09]) State.status = some (.faulted ⟨.reservedRegisterWrite 9, 0⟩) := by decide
theorem test_add_wraps_no_flag :
    after (runReg 0 [0xA0, 0x02, 0x01] 1 100) (fun t => (t.reg 2, t.fl)) = some (44, .unset) := by decide
theorem test_add_same_register : after (runReg 0 [0xA0, 0x00, 0x00] 0 128) (fun t => t.reg 0) = some 0 := by decide
theorem test_cmp_unsigned :
    after ((runReg 0 [0xA7, 0x00, 0x01] 0 0x80).setReg 1 0x7F) (fun t => (t.fl, t.pc)) = some (.greater, 3) := by decide
theorem test_cmp_first_operand_first :
    after (run 0 [0xA7, 0x08, 0x09]) State.status = some (.faulted ⟨.registerIndexOutOfRange 8, 0⟩) := by decide
theorem test_push_sp_after_decrement :
    after (run 0 [0x45, 0x07]) (fun t => (t.sp, t.mem.read 0xF3, t.pc)) = some (0xF3, 0xF3, 2) := by decide
theorem test_push_wraps :
    after (runReg 0 [0x45, 0x00] .sp 0) (fun t => (t.sp, t.mem.read 0xFF)) = some (0xFF, 3) := by decide
theorem test_pop_wraps_keeps_memory :
    after ((run 0 [0x46, 0x01]).setReg .sp 0xFF |>.poke 0xFF 5) (fun t => (t.reg 1, t.sp, t.mem.read 0xFF)) =
      some (5, 0, 5) := by decide
theorem test_pop_into_sp :
    after (run 0 [0x46, 0x07]) (fun t => (t.status, t.sp)) =
      some (.faulted ⟨.reservedRegisterWrite 7, 0⟩, 0xF4) := by decide
theorem test_call_pushes_return_address :
    after (runReg 6 [0x50, 0x01] 1 0x0B) (fun t => (t.sp, t.mem.read 0xF3, t.pc)) = some (0xF3, 8, 0x0B) := by decide
theorem test_call_sp_after_push :
    after (run 0x10 [0x50, 0x07]) (fun t => (t.mem.read 0xF3, t.pc)) = some (0x12, 0xF3) := by decide
theorem test_ret_wraps :
    after ((run 0 [0x11]).setReg .sp 0xFF |>.poke 0xFF 0x20) (fun t => (t.pc, t.sp)) = some (0x20, 0) := by decide
/-- R35: the running flag is cleared by Halt and by nothing else, a fault included. -/
theorem test_running_flag :
    base.running = true ∧ after (run 0 [0x01]) State.running = some false ∧
      after (run 0 [0xFF]) State.running = some true := by decide
theorem test_jmp : after (run 0x20 [0x54, 0x03]) (fun t => (t.pc, t.fl)) = some (0x0C, .unset) := by decide
theorem test_jeq_unset_not_taken :
    after (run 0x10 [0x55, 0x08]) (fun t => (t.pc, t.status)) = some (0x12, .running) := by decide
theorem test_jeq_taken : after ((run 0x10 [0x55, 0x03]).setFl .equal) (fun t => t.pc) = some 0x0C := by decide
theorem test_jne_unset_taken : after (run 0x10 [0x56, 0x03]) (fun t => t.pc) = some 0x0C := by decide
theorem test_jne_equal_no_fault :
    after ((run 0x14 [0x56, 0x09]).setFl .equal) (fun t => (t.pc, t.status)) = some (0x16, .running) := by decide

/-! ### Engine, memory, host interface -/

theorem test_unknown_opcode :
    after (run 3 [0xFF]) State.status = some (.faulted ⟨.unknownInstruction 0xFF, 3⟩) := by decide
theorem test_fetch_at_256 :
    after (run 256 []) State.status = some (.faulted ⟨.memoryAddressOutOfRange 256, 256⟩) := by decide
theorem test_halted_has_no_step : step ((run 0 [0x01]).setStatus .halted) = .fault .noStepHalted := rfl
theorem test_write_zero_removes_entry : Memory.write [(3, 7), (9, 1)] 3 0 = [(9, 1)] := by decide
theorem test_write_keeps_order : Memory.write [(3, 7), (9, 1)] 5 2 = [(3, 7), (5, 2), (9, 1)] := by decide
theorem test_wf_memory_refuses_disorder : Memory.wf [(9, 1), (3, 7)] = false := by decide
theorem test_wf_memory_refuses_zero_entry : Memory.wf [(3, 0)] = false := by decide
theorem test_wf_memory_refuses_outside : Memory.wf [(256, 1)] = false := by decide
theorem test_boot_places_image :
    (boot Config.resetRegs [0x82, 0, 8]).map (fun s => (s.mem, s.sp, s.pc)) = some ([(0, 0x82), (2, 8)], 0xF4, 0) := by
  decide
theorem test_boot_refuses_257_bytes : boot Config.resetRegs (List.replicate 257 1) = none :=
  if_neg (by rw [List.length_replicate]; decide)
theorem test_render_out : renderOut [1, 20, 255] = "1\n20\n255\n" := by decide
theorem test_fetch_word_runs_first :
    after (State.reset.withFetchWord 24 0x080082) (fun t => (t.reg 0, t.pc)) = some (8, 3) := by decide

/-! ### Witnesses: a concrete case that meets the hypotheses of each statement, clause by clause -/

theorem witness_OnlyThirteenOpcodeBytesAreAssigned :
    (run 253 [0xFF]).status = .running ∧ (run 253 [0xFF]).pc ≤ 253 ∧ (run 253 [0xFF]).mem.read 253 ∉
      ([0x01, 0x11, 0x45, 0x46, 0x47, 0x50, 0x54, 0x55, 0x56, 0x82, 0xA0, 0xA2, 0xA7] : List Byte) := by decide

/-- An injective assignment that is not the default one. -/
def otherOpc : OpcodeMap := fun op => defaultOpc op + 1

/-- For `DecodeOfEncodeGivesInstruction`, `OperandBytesNeverMakeEncodingIllegal` (both formats) and
`StepUnderAnyOpcodeMapRunsNamedInstruction`. -/
theorem witness_InjectiveOpcodeMap :
    OpcodeMap.Injective otherOpc ∧ Op.ret.format = .n ∧ Op.jne.format = .r ∧ (run 253 [0x02]).status = .running ∧
      (run 253 [0x02]).pc ≤ 253 ∧ (run 253 [0x02]).mem.read 253 = otherOpc .hlt := by
  refine ⟨?_, rfl, rfl, rfl, by decide, by decide⟩
  intro a b
  cases a <;> cases b <;> decide

theorem witness_DecodedBytesAreTheEncoding : decode defaultOpc [0x82, 0xFF, 0xFF, 0x01] = .ok (.ldi 255 255, [0x01]) := rfl

theorem witness_StepRunsDecodedInstruction :
    (run 253 [0x82, 0x00, 0xFF]).status = .running ∧ (run 253 [0x82, 0x00, 0xFF]).pc ≤ 253 ∧
      decodeWindow defaultOpc ⟨(run 253 [0x82, 0x00, 0xFF]).mem.read 253, (run 253 [0x82, 0x00, 0xFF]).mem.read 254,
        (run 253 [0x82, 0x00, 0xFF]).mem.read 255⟩ = .ok (.ldi 0 255) := ⟨rfl, by decide, rfl⟩

/-- For the three clauses of `StepIsFetchLookupInvoke`, which `FirstFailingCheckIsRaised` shares, and the last clause of
`HaltStopsWithPcUnchanged` and the first of `MemoryFaultsComeOnlyFromFetch`. -/
theorem witness_StepIsFetchLookupInvoke :
    ((run 254 [0x01]).status = .running ∧ 254 ≤ (run 254 [0x01]).pc) ∧
    ((run 253 [0xFF]).pc ≤ 253 ∧ ∀ op, defaultOpc op ≠ (run 253 [0xFF]).mem.read 253) ∧
    ((run 253 [0x01]).pc ≤ 253 ∧ defaultOpc .hlt = (run 253 [0x01]).mem.read 253) := by
  refine ⟨by decide, ⟨by decide, fun op => ?_⟩, by decide⟩
  cases op <;> decide

/-- For `RunningStatesStepTerminalStatesDoNot`, `TerminalStatesAnswerNoStep` and `StepInputAnswersByStatus`: a state of each
status. -/
theorem witness_EveryStatus :
    base.status = .running ∧ (base.setStatus .halted).status = .halted ∧
      (base.setStatus (.faulted ⟨.unknownInstruction 0, 0⟩)).status = .faulted ⟨.unknownInstruction 0, 0⟩ := by decide

theorem witness_StepInputAnswersByStatus :
    after (run 0 [0x47, 0]) State.status = some .running ∧ after (run 0 [0x01]) State.status = some .halted ∧
      after (run 0 [0xFF]) State.status = some (.faulted ⟨.unknownInstruction 0xFF, 0⟩) := by decide

theorem witness_PlacedTableWordIsStepped :
    (run 253 []).status = .running ∧ (run 253 []).pc ≤ 253 ∧ decodeTableWord 24 0xFF0082 = some (.ldi 0 255) := by decide

theorem witness_FaultsArePrecise :
    step (run 0 [0x82, 0x05, 0x08]) = .next (faultedFrom (run 0 [0x82, 0x05, 0x08]) (.reservedRegisterWrite 5)) := rfl

/-- For the operand clauses of `FirstFailingCheckIsRaised`: a reserved destination beside an illegal source, an illegal first
source beside an illegal second, a taken branch of each kind. -/
theorem witness_FirstFailingCheckIsRaised :
    ((Instr.add 9 9).destination? = some 9 ∧ 5 ≤ (9 : Byte).toNat) ∧
    ((Instr.cmp 8 9).sources.find? (fun x => !sourceLegal x) = some 8 ∧ (Instr.cmp 8 9).destination? = none) ∧
    ((Instr.mul 4 8).sources.find? (fun x => !sourceLegal x) = some 8 ∧ (Instr.mul 4 8).destination? = some 4) ∧
    ((base.setFl .equal).fl = .equal ∧ (Instr.jeq 8).sources.find? (fun x => !sourceLegal x) = some 8) ∧
    (base.fl ≠ .equal ∧ (Instr.jne 255).sources.find? (fun x => !sourceLegal x) = some 255) := by decide

theorem witness_LegalOperandsRunToEffect : base.status = .running ∧ (Instr.mul 4 7).wellFormed = true := by decide

/-- For `HandlersRaiseOnlyOperandFaults`: both kinds of fault. -/
theorem witness_HandlersRaiseOnlyOperandFaults :
    base.status = .running ∧ exec (.pop 5) base = .next (faultedFrom base (.reservedRegisterWrite 5)) ∧
      exec (.prn 8) base = .next (faultedFrom base (.registerIndexOutOfRange 8)) := ⟨rfl, rfl, rfl⟩

/-- For the step clauses of `AluKindsAreClosed` and `MemoryFaultsComeOnlyFromFetch`. -/
theorem witness_MemoryFaultsComeOnlyFromFetch :
    step (run 300 []) = .next (faultedFrom (run 300 []) (.memoryAddressOutOfRange 300)) ∧
      exec .hlt base = .next (base.setStatus .halted) := ⟨rfl, rfl⟩

/-- For the two clauses of `MemoryPortReadsLastWrite`, at the last address inside and the first outside. -/
theorem witness_MemoryPortReadsLastWrite :
    (255 ≤ 255 ∧ memRead base 255 = .ok 0) ∧ (256 ≤ 256 ∧ memRead base 256 = .error (.memoryAddressOutOfRange 256)) :=
  ⟨⟨by decide, rfl⟩, ⟨by decide, rfl⟩⟩

/-- For `CanonicalMemoriesAreEqualData`. -/
theorem witness_CanonicalMemoriesAreEqualData : Memory.wf [(0, 1), (255, 255)] = true := by decide

/-- For `DataAccessesAreTheStacks`, `LoadAndArithmeticFrame`, `CompareJumpPrintHaltFrame`, `PushCallFrame` and
`PopReturnFrame`: an instruction of each shape completes, and for Pop two memories that
agree at SP alone. -/
theorem witness_DataAccessesAreTheStacks :
    (∃ t, exec (.push 0) base = .next t) ∧ (∃ t, exec (.call 0) base = .next t) ∧ (∃ t, exec (.pop 0) base = .next t) ∧
    (∃ t, exec .ret base = .next t) ∧ (∃ t, exec (.ldi 0 1) base = .next t) ∧ (∃ t, exec (.mul 0 1) base = .next t) ∧
    (∃ t, exec (.add 0 1) base = .next t) ∧ (∃ t, exec (.cmp 0 1) base = .next t) ∧
    (∃ t, exec (.prn 0) base = .next t) ∧ (∃ t, exec .hlt base = .next t) ∧ (∃ t, exec (.jmp 0) base = .next t) ∧
    (∃ t, exec (.jeq 0) base = .next t) ∧ (∃ t, exec (.jne 0) base = .next t) ∧
    Memory.read [(0, 9)] base.sp.toNat = base.mem.read base.sp.toNat :=
  ⟨⟨_, rfl⟩, ⟨_, rfl⟩, ⟨_, rfl⟩, ⟨_, rfl⟩, ⟨_, rfl⟩, ⟨_, rfl⟩, ⟨_, rfl⟩, ⟨_, rfl⟩, ⟨_, rfl⟩, ⟨_, rfl⟩, ⟨_, rfl⟩, ⟨_, rfl⟩,
    ⟨_, rfl⟩, rfl⟩

theorem witness_PushedByteIsFetchedNext :
    Names 0 0 ∧ (runReg 0 [0x45, 0x00] .sp 3).pc ≤ 251 ∧ pushAddress (runReg 0 [0x45, 0x00] .sp 3) = 0 + 2 :=
  ⟨rfl, by decide, by decide⟩

/-- For the destination clauses of LoadImmediate, Multiply, Add and Pop: the last legal byte, the first reserved one, and the
first byte that names no register beside a legal destination. -/
theorem witness_DestinationClauses :
    (Names 4 4 ∧ (4 : RegId).val < 5 ∧ Names 7 7) ∧ 5 ≤ (5 : Byte).toNat ∧ 5 ≤ (255 : Byte).toNat ∧
      ((4 : Byte).toNat < 5 ∧ 8 ≤ (8 : Byte).toNat) := by
  refine ⟨⟨rfl, by decide, rfl⟩, ?_⟩
  decide

/-- For the source clauses of Print, Compare, Push, Call, Jump: the last register, SP, and the first byte that names none;
for Call at the last pc where it can execute; for Compare each of the three orders; for Jump its own address. -/
theorem witness_SourceClauses :
    Names 7 .sp ∧ 8 ≤ (8 : Byte).toNat ∧ ((7 : Byte).toNat < 8 ∧ 8 ≤ (255 : Byte).toNat) ∧
      (run 253 [0x50, 0x00]).pc ≤ 253 ∧ ((base.setReg 0 4).reg 0).toNat = ((base.setReg 0 4).reg 1).toNat ∧
      (base.reg 0).toNat < (base.reg 1).toNat ∧ (base.reg 5).toNat < (base.reg 4).toNat ∧
      ((run 0x0C [0x54, 0x03]).reg 3).toNat = (run 0x0C [0x54, 0x03]).pc := by
  refine ⟨rfl, ?_⟩
  decide

/-- For `JumpIfEqualBranchesOnEqual` and `JumpIfNotEqualBranchesOnNotEqual`: each flag state. -/
theorem witness_FlagClauses :
    base.fl = .unset ∧ (base.setFl .equal).fl = .equal ∧ (base.setFl .greater).fl = .greater ∧
      (base.setFl .less).fl = .less ∧ Names 7 7 ∧ 8 ≤ (8 : Byte).toNat :=
  ⟨rfl, rfl, rfl, rfl, rfl, by decide⟩

/-- For `PcUpdateOfEveryInstruction`: a completing instruction of each arm that has a condition of its own. -/
theorem witness_PcUpdateOfEveryInstruction :
    base.status = .running ∧ (∀ r, (base.setStatus .halted).status ≠ .faulted r) ∧
      exec (.jeq 0) (base.setFl .equal) = .next ((base.setFl .equal).jumpTo 3) ∧ base.fl ≠ .equal ∧
      exec (.jne 0) base = .next (base.jumpTo 3) := by
  refine ⟨rfl, fun r => ?_, rfl, by decide, rfl⟩
  simp [State.setStatus]

/-- For `InterruptRegistersNeverWritten`, `OnlyHaltHalts`, `RunningFlagClearedOnlyByHalt` and `FlagStateWrittenOnlyByCompare`: a step, a Compare that
completes, and a state whose FL is set. -/
theorem witness_WholeMachineRules :
    (∃ t, step (run 253 [0x01]) = .next t) ∧
      (∃ t, exec (.cmp 0 1) base = .next t ∧ base.status = .running ∧ t.status = .running) ∧
      (∃ t, step ((run 0 [0x47, 0x00]).setFl .less) = .next t ∧ ((run 0 [0x47, 0x00]).setFl .less).fl ≠ .unset) :=
  ⟨⟨_, rfl⟩, ⟨_, rfl, rfl, rfl⟩, ⟨_, rfl, by decide⟩⟩

/-- For `StackPointerMovesOnlyByStackInstructions` and `OutputGrowsOnlyByPrint`. -/
theorem witness_ExecAnswersNext : ∃ t, exec (.prn 0) base = .next t ∧ t.out = [3] := ⟨_, rfl, rfl⟩

/-- For `ResetValuesAndProgramImage`: both lengths at the boundary, an address inside and one outside the image. -/
theorem witness_ResetValuesAndProgramImage :
    (List.replicate 256 (1 : Byte)).length ≤ 256 ∧ 256 < (List.replicate 257 (1 : Byte)).length ∧
      255 < (List.replicate 256 (1 : Byte)).length ∧ ([1] : List Byte).length ≤ 1 := by
  simp only [List.length_replicate]
  decide

theorem witness_StepKeepsInvariant : Inv defaultOpc (run 253 [0x01]) ∧ ∃ t, step (run 253 [0x01]) = .next t :=
  ⟨⟨by decide, by decide, trivial⟩, ⟨_, rfl⟩⟩

theorem witness_EveryRunFromBootKeepsInvariant : ∃ s, boot #v[1, 2, 3, 4, 5, 6, 7] [0x47, 0x05, 0x01] = some s :=
  ⟨_, rfl⟩

/-- For `EveryRunEndsInOneWay`: a run that ends well and one that ends badly. -/
theorem witness_EveryRunEndsInOneWay : (∃ t, EndsWell defaultOpc (run 0 [0x01]) t) ∧ ∃ t, EndsBadly defaultOpc (run 0 [0xFF]) t :=
  ⟨⟨_, 1, rfl, rfl⟩, ⟨_, 1, _, rfl, rfl⟩⟩

/-- R73: the run loop and the step input under an assignment that is not the default one, where 0x02 is Halt. -/
theorem test_run_under_other_opcodes :
    (runFor otherOpc 1 (run 0 [0x02])).status = .halted ∧ (runFor defaultOpc 1 (run 0 [0x02])).status =
      .faulted ⟨.unknownInstruction 0x02, 0⟩ ∧
      stepInput otherOpc (run 0 [0x02]) = .halted ((run 0 [0x02]).setStatus .halted) := by decide

/-- With the default assignment, whose Jump is 0x54, and whose injectivity is `DefaultOpcodeMapInjective`; an injective one is
`witness_InjectiveOpcodeMap`'s too. -/
theorem witness_JumpToItselfNeverEnds :
    OpcodeMap.Injective defaultOpc ∧
    (run 0x0C [0x54, 0x03]).status = .running ∧ (run 0x0C [0x54, 0x03]).pc ≤ 253 ∧
      (run 0x0C [0x54, 0x03]).mem.read 0x0C = defaultOpc .jmp ∧ Names ((run 0x0C [0x54, 0x03]).mem.read 0x0D) 3 ∧
      ((run 0x0C [0x54, 0x03]).reg 3).toNat = 0x0C :=
  ⟨fun a b => by cases a <;> cases b <;> decide, rfl, by decide, by decide, rfl, by decide⟩

/-- For `PushThenPopMovesValue` (with the source SP too), `ReturnResumesAfterCall` (the state right after the Call) and
`CompareThenBranchFollowsEquality`. -/
theorem witness_Sequences :
    Names 7 .sp ∧ Names 4 4 ∧ (4 : RegId).val < 5 ∧ Names 0 0 ∧ base.pc ≤ 253 ∧
      ∃ t, exec (.call 0) base = .next t ∧ t.sp = t.sp ∧ t.mem.read t.sp.toNat = t.mem.read t.sp.toNat :=
  ⟨rfl, rfl, by decide, rfl, by decide, ⟨_, rfl, rfl, rfl⟩⟩

end Sys2Proof.Tests
end

section
/-! The step input (00_scope.md R6 (b)): it answers the status of the state the step reaches, and in a terminal state, which
has no step, the status of the state itself. -/

namespace Sys2Proof.Machine

/-- Every instruction has a next state: the meanings neither stop nor refuse. -/
theorem exec_exists_next (i : Instr) (s : State) : ∃ t, exec i s = .next t := by
  rcases exec_cases i s with ⟨t, ht, -⟩ | ⟨c, hc, -⟩
  · exact ⟨t, ht⟩
  · exact ⟨faultedFrom s c, hc⟩

/-- The converse of `running_of_stepWith`: a running state has a next state (60_exceptions.md R140). -/
theorem stepWith_exists_next (opc : OpcodeMap) {s : State} (h : s.status = .running) : ∃ t, stepWith opc s = .next t := by
  cases hf : fetchInstr opc s with
  | error c => exact ⟨faultedFrom s c, stepWith_error opc h hf⟩
  | ok i => simpa only [stepWith_exec opc h hf] using exec_exists_next i s

theorem answerOf_running {t : State} (h : t.status = .running) : answerOf t = .stepped t := by
  simp only [answerOf, h]

theorem answerOf_halted {t : State} (h : t.status = .halted) : answerOf t = .halted t := by
  simp only [answerOf, h]

theorem answerOf_faulted {t : State} {r : FaultRecord} (h : t.status = .faulted r) : answerOf t = .faulted t r := by
  simp only [answerOf, h]

theorem answerOf_ne_refused (t : State) (r : Refusal) : answerOf t ≠ .refused r := by
  cases h : t.status with
  | running => simp [answerOf_running h]
  | halted => simp [answerOf_halted h]
  | faulted _ => simp [answerOf_faulted h]

theorem stepInput_of_next {opc : OpcodeMap} {s t : State} (h : stepWith opc s = .next t) : stepInput opc s = answerOf t := by
  simp only [stepInput, h]

theorem stepInput_of_fault {opc : OpcodeMap} {s : State} {f : Fault} (h : stepWith opc s = .fault f) :
    stepInput opc s = answerOf s := by
  simp only [stepInput, h]

/-- Whatever its status, a state's step input gives the answer of some state. -/
theorem stepInput_eq_answerOf (opc : OpcodeMap) (s : State) : ∃ t, stepInput opc s = answerOf t := by
  cases h : s.status with
  | running =>
    obtain ⟨t, ht⟩ := stepWith_exists_next opc h
    exact ⟨t, stepInput_of_next ht⟩
  | halted => exact ⟨s, stepInput_of_fault (stepWith_halted opc h)⟩
  | faulted r => exact ⟨s, stepInput_of_fault (stepWith_faulted opc h)⟩

/-- Settles O13: a running state's step input is `answerOf` the state its step reaches, a terminal state's is `answerOf` the
state itself, and `answerOf` is never a refusal. -/
theorem stepInputAnswersByStatus : Obligations.StepInputAnswersByStatus := by
  intro opc s
  refine ⟨fun hs => ?_, fun hs => ?_, fun r hs => ?_, fun r => ?_⟩
  · obtain ⟨t, ht⟩ := stepWith_exists_next opc hs
    rw [stepInput_of_next ht]
    exact ⟨t, ht, answerOf_running, answerOf_halted, fun _ => answerOf_faulted⟩
  · rw [stepInput_of_fault (stepWith_halted opc hs), answerOf_halted hs]
  · rw [stepInput_of_fault (stepWith_faulted opc hs), answerOf_faulted hs]
  · obtain ⟨t, ht⟩ := stepInput_eq_answerOf opc s
    rw [ht]
    exact answerOf_ne_refused t r

end Sys2Proof.Machine
end

section
/-! The frame of every instruction, said once: what an effect leaves unchanged, where it moves the pc and the stack pointer,
and that a fault changes the status alone. -/

namespace Sys2Proof

/-- The instructions that move the stack pointer (10_state.md R24). -/
def Op.movesSP : Op → Bool
  | .push | .pop | .call | .ret => true
  | _ => false

/-- Only LoadImmediate, Multiply, Add and Pop have an explicit destination (R27). -/
theorem Instr.destination?_eq_none {i : Instr} (h : i.op ∉ [Op.ldi, .mul, .add, .pop]) : i.destination? = none := by
  cases i <;> simp_all [Instr.op, Instr.destination?]

namespace Machine

/-! ### The faulted state: only the status differs (60_exceptions.md R149) -/

@[simp] theorem faultedFrom_reg (s : State) (c : Cause) (q : RegId) : (faultedFrom s c).reg q = s.reg q := rfl
@[simp] theorem faultedFrom_sp (s : State) (c : Cause) : (faultedFrom s c).sp = s.sp := rfl
@[simp] theorem faultedFrom_pc (s : State) (c : Cause) : (faultedFrom s c).pc = s.pc := rfl
@[simp] theorem faultedFrom_fl (s : State) (c : Cause) : (faultedFrom s c).fl = s.fl := rfl
@[simp] theorem faultedFrom_status (s : State) (c : Cause) : (faultedFrom s c).status = .faulted ⟨c, s.pc⟩ := rfl
@[simp] theorem faultedFrom_mem (s : State) (c : Cause) : (faultedFrom s c).mem = s.mem := rfl
@[simp] theorem faultedFrom_out (s : State) (c : Cause) : (faultedFrom s c).out = s.out := rfl

/-! ### The stack pointer among the registers -/

theorem State.decSP_reg_ne (s : State) {q : RegId} (h : q ≠ .sp) : s.decSP.reg q = s.reg q :=
  s.reg_setReg_ne _ _ _ h

theorem State.incSP_reg_ne (s : State) {q : RegId} (h : q ≠ .sp) : s.incSP.reg q = s.reg q :=
  s.reg_setReg_ne _ _ _ h

/-- A general-purpose register is not the stack pointer. -/
theorem State.setReg_sp (s : State) {d : RegId} (hd : d.val < 5) (v : Byte) : (s.setReg d v).sp = s.sp :=
  s.reg_setReg_ne _ _ _ (by rintro rfl; exact absurd hd (by decide))

/-! ### The flag state -/

theorem FlagState.ne_unset_iff {f : FlagState} : f ≠ .unset ↔ f = .equal ∨ f = .greater ∨ f = .less := by
  cases f <;> simp

/-! ### The frame of an effect -/

namespace Effect

variable {i : Instr} {s t : State}

/-- An instruction that has an effect has a general-purpose destination (R27). -/
theorem destination_lt (h : Effect i s t) {o : Byte} (ho : i.destination? = some o) : o.toNat < 5 := by
  by_contra h5
  exact h.not_raises (.destination ho (by omega))

/-- A register changes only as the named destination or as the stack pointer of a stack instruction. -/
theorem reg_eq (h : Effect i s t) {q : RegId} (hd : ∀ o, i.destination? = some o → ¬ Names o q)
    (hsp : q = .sp → i.op.movesSP = false) : t.reg q = s.reg q := by
  have named_ne {o : Byte} {d : RegId} (ho : i.destination? = some o) (hn : Names o d) : q ≠ d :=
    fun e => hd o ho (e ▸ hn)
  cases h with
  | hlt | prn | cmp | jmp | jeqTaken | jeqNotTaken | jneTaken | jneNotTaken => rfl
  | ldi hr | mul hr | add hr => exact State.reg_setReg_ne _ _ _ _ (named_ne rfl hr)
  | push | call => exact State.decSP_reg_ne _ fun e => Bool.noConfusion (hsp e)
  | pop hr =>
    exact (State.incSP_reg_ne _ fun e => Bool.noConfusion (hsp e)).trans
      (State.reg_setReg_ne _ _ _ _ (named_ne rfl hr))
  | ret => exact State.incSP_reg_ne _ fun e => Bool.noConfusion (hsp e)

/-- FL is written by Compare alone, and never to Unset (10_state.md R32). -/
theorem fl_cases (h : Effect i s t) : t.fl = s.fl ∨ i.op = .cmp ∧ t.fl ≠ .unset := by
  cases h with
  | cmp => exact .inr ⟨rfl, compareFlag_ne_unset _ _⟩
  | _ => exact .inl rfl

/-- The output grows by Print alone (R37). -/
theorem out_cases (h : Effect i s t) :
    t.out = s.out ∨ ∃ r q, i = .prn r ∧ Names r q ∧ t.out = s.out ++ [s.reg q] := by
  cases h with
  | prn hr => exact .inr ⟨_, _, rfl, hr, rfl⟩
  | _ => exact .inl rfl

/-- Memory is written by Push and Call alone, at `pushAddress` (20_memory.md R53). -/
theorem mem_cases (h : Effect i s t) :
    t.mem = s.mem ∨ (i.op = .push ∨ i.op = .call) ∧ ∃ v, t.mem = Memory.write s.mem (pushAddress s) v := by
  cases h with
  | push => exact .inr ⟨.inl rfl, _, rfl⟩
  | call => exact .inr ⟨.inr rfl, _, rfl⟩
  | _ => exact .inl rfl

/-- The stack pointer moves down with Push and Call and up with Pop and Return (10_state.md R25). -/
theorem sp_cases (h : Effect i s t) :
    t.sp = s.sp ∨ (i.op = .push ∨ i.op = .call) ∧ t.sp = s.sp - 1 ∨ (i.op = .pop ∨ i.op = .ret) ∧ t.sp = s.sp + 1 := by
  cases h with
  | push => exact .inr (.inl ⟨.inl rfl, State.decSP_sp s⟩)
  | call => exact .inr (.inl ⟨.inr rfl, State.decSP_sp s⟩)
  | pop hr hd =>
    refine .inr (.inr ⟨.inl rfl, ?_⟩)
    rw [State.advance_sp, State.incSP_sp, State.setReg_sp s hd]
  | ret => exact .inr (.inr ⟨.inr rfl, State.incSP_sp _⟩)
  | ldi _ hd | mul _ hd | add _ hd => exact .inl (State.setReg_sp s hd _)
  | hlt | prn | cmp | jmp | jeqTaken | jeqNotTaken | jneTaken | jneNotTaken => exact .inl rfl

/-- The pc advances by at most three or is set to a byte (R30). -/
theorem pc_le (h : Effect i s t) : t.pc ≤ s.pc + 3 ∨ t.pc ≤ 255 := by
  have byte_le (b : Byte) : b.toNat ≤ 255 := Nat.le_of_lt_succ b.isLt
  cases h with
  | hlt | ldi | prn | mul | add | cmp | push | pop | jeqNotTaken | jneNotTaken => exact .inl (by simp)
  | call | ret | jmp | jeqTaken | jneTaken => exact .inr (byte_le _)

/-- A state that an effect halts was halted by Halt. -/
theorem status_cases (h : Effect i s t) : t.status = s.status ∨ i = .hlt ∧ t.status = .halted := by
  have hst := h.status_eq
  split at hst
  · exact .inr ⟨‹_›, hst⟩
  · exact .inl hst

/-- No effect depends on the output it appends to (R37). -/
theorem withOut (h : Effect i s t) {e : List Byte} (he : t.out = s.out ++ e) (o : List Byte) :
    Effect i { s with out := o } { t with out := o ++ e } := by
  have silent (hs : t.out = s.out) : e = [] := by simpa [hs] using he
  cases h with
  | prn hr =>
    obtain rfl := List.append_cancel_left he
    exact .prn hr
  | _ =>
    obtain rfl := silent rfl
    rw [List.append_nil]
    constructor <;> assumption

end Effect

end Machine

end Sys2Proof
end

section
/-! What every next state of `exec` keeps, an effect's and a fault's: the frames of the 13 instructions (10_state.md R24 to
R37), and what a handler raises (R26, R27). -/

namespace Sys2Proof.Machine

/-! ### What a handler raises -/

/-- The operand that a raised cause names, and the check it fails. -/
theorem Raises.illegal_operand {i : Instr} {s : State} {c : Cause} (h : Raises i s c) :
    (∃ o, i.destination? = some o ∧ 5 ≤ o.toNat ∧ c = .reservedRegisterWrite o) ∨
      ∃ o ∈ i.sources, 8 ≤ o.toNat ∧ c = .registerIndexOutOfRange o := by
  cases h with
  | destination ho h5 => exact .inl ⟨_, ho, h5, rfl⟩
  | source _ _ _ hf =>
    obtain ⟨hmem, h8⟩ := illegal_source hf
    exact .inr ⟨_, hmem, h8, rfl⟩

/-- An instruction with legal operands raises nothing. -/
theorem Raises.not_wellFormed {i : Instr} {s : State} {c : Cause} (h : Raises i s c) : i.wellFormed = false := by
  rcases h.illegal_operand with ⟨o, ho, h5, -⟩ | ⟨o, ho, h8, -⟩
  · have hdest : i.destination?.all destinationLegal = false := by
      simp [ho, destinationLegal, h5]
    rw [Instr.wellFormed, hdest, Bool.false_and]
  · have hsrc : i.sources.all sourceLegal = false := List.all_eq_false.mpr ⟨o, ho, by simp [sourceLegal_false h8]⟩
    rw [Instr.wellFormed, hsrc, Bool.and_false]

section Exec

variable {i : Instr} {s t : State}

/-! ### The frame of `exec` -/

theorem exec_reg_eq (h : exec i s = .next t) {q : RegId} (hd : ∀ o, i.destination? = some o → ¬ Names o q)
    (hsp : q = .sp → i.op.movesSP = false) : t.reg q = s.reg q := by
  rcases exec_next_cases h with he | ⟨c, rfl, -⟩
  · exact he.reg_eq hd hsp
  · exact faultedFrom_reg s c q

theorem exec_fl_cases (h : exec i s = .next t) : t.fl = s.fl ∨ i.op = .cmp ∧ t.fl ≠ .unset := by
  rcases exec_next_cases h with he | ⟨c, rfl, -⟩
  · exact he.fl_cases
  · exact .inl (faultedFrom_fl s c)

theorem exec_out_cases (h : exec i s = .next t) :
    t.out = s.out ∨ ∃ r q, i = .prn r ∧ Names r q ∧ t.out = s.out ++ [s.reg q] := by
  rcases exec_next_cases h with he | ⟨c, rfl, -⟩
  · exact he.out_cases
  · exact .inl (faultedFrom_out s c)

theorem exec_mem_cases (h : exec i s = .next t) :
    t.mem = s.mem ∨ (i.op = .push ∨ i.op = .call) ∧ ∃ v, t.mem = Memory.write s.mem (pushAddress s) v := by
  rcases exec_next_cases h with he | ⟨c, rfl, -⟩
  · exact he.mem_cases
  · exact .inl (faultedFrom_mem s c)

theorem exec_sp_cases (h : exec i s = .next t) :
    t.sp = s.sp ∨ (i.op = .push ∨ i.op = .call) ∧ t.sp = s.sp - 1 ∨ (i.op = .pop ∨ i.op = .ret) ∧ t.sp = s.sp + 1 := by
  rcases exec_next_cases h with he | ⟨c, rfl, -⟩
  · exact he.sp_cases
  · exact .inl (faultedFrom_sp s c)

theorem exec_status_cases (h : exec i s = .next t) :
    t.status = s.status ∨ i = .hlt ∧ t.status = .halted ∨ ∃ c, t = faultedFrom s c := by
  rcases exec_next_cases h with he | ⟨c, rfl, -⟩
  · exact he.status_cases.imp_right .inl
  · exact .inr (.inr ⟨c, rfl⟩)

theorem exec_fl_eq (h : exec i s = .next t) (hi : i.op ≠ .cmp) : t.fl = s.fl :=
  (exec_fl_cases h).resolve_right fun hc => hi hc.1

theorem exec_out_eq (h : exec i s = .next t) (hi : i.op ≠ .prn) : t.out = s.out :=
  (exec_out_cases h).resolve_right fun ⟨_, _, hp, _⟩ => hi (hp ▸ rfl)

theorem exec_mem_eq (h : exec i s = .next t) (hp : i.op ≠ .push) (hc : i.op ≠ .call) : t.mem = s.mem :=
  (exec_mem_cases h).resolve_right fun hw => hw.1.elim hp hc

/-- Every instruction leaves memory as it was outside the one address that Push and Call store to. -/
theorem exec_memSameBut (h : exec i s = .next t) : MemSameBut (pushAddress s) s t := by
  intro b hb
  rcases exec_mem_cases h with hm | ⟨-, v, hm⟩
  · rw [hm]
  · rw [hm, Memory.read_write, if_neg hb]

/-- Every instruction but Halt leaves the status, or the state is the start state faulted. -/
theorem exec_status_eq_or_faulted (h : exec i s = .next t) (hi : i.op ≠ .hlt) :
    t.status = s.status ∨ ∃ c, t = faultedFrom s c := by
  rcases exec_status_cases h with hs | ⟨rfl, -⟩ | hf
  · exact .inl hs
  · exact absurd rfl hi
  · exact .inr hf

/-- From a running state, Halt and nothing else halts (R35). -/
theorem exec_halted_iff (hs : s.status = .running) (h : exec i s = .next t) : t.status = .halted ↔ i = .hlt := by
  rcases exec_next_cases h with he | ⟨c, rfl, hr⟩
  · rw [he.status_eq, hs]
    split <;> simp_all
  · have hne : i ≠ .hlt := by
      rintro rfl
      exact (Effect.hlt (s := s)).not_raises hr
    simp [hne]

/-- From a running state the record of a faulted next state is the handler's own raise, at the pc (60_exceptions.md R149). -/
theorem exec_faulted (hs : s.status = .running) (h : exec i s = .next t) {r : FaultRecord} (hr : t.status = .faulted r) :
    ∃ c, Raises i s c ∧ r = ⟨c, s.pc⟩ := by
  rcases exec_next_cases h with he | ⟨c, rfl, hc⟩
  · rw [he.status_eq, hs] at hr
    split at hr <;> cases hr
  · exact ⟨c, hc, by simpa using hr.symm⟩

/-- A next state gained some bytes of output, and with any other output the instruction gains the same (R37). -/
theorem exec_withOut (h : exec i s = .next t) {e : List Byte} (he : t.out = s.out ++ e) (o : List Byte) :
    exec i { s with out := o } = .next { t with out := o ++ e } := by
  rcases exec_next_cases h with heff | ⟨c, rfl, hr⟩
  · exact (heff.withOut he o).exec_eq
  · obtain rfl : e = [] := by simpa using he
    have hr' : Raises i { s with out := o } c := by
      cases hr with
      | destination ho h5 => exact .destination ho h5
      | source hd hj hn hf => exact .source hd hj hn hf
    rw [List.append_nil]
    exact hr'.exec_eq

end Exec

/-! ### Legal and illegal operands -/

/-- Settles O18: an instruction with legal operands raises nothing, so it has its effect, whose status is known. -/
theorem legalOperandsRunToEffect : Obligations.LegalOperandsRunToEffect := by
  intro i s hs hwf
  rcases exec_cases i s with ⟨t, ht, he⟩ | ⟨c, -, hr⟩
  · exact ⟨t, ht, hs ▸ he.status_eq⟩
  · exact absurd hwf (by simp [hr.not_wellFormed])

/-- Settles O19: the record of a faulted next state carries what the handler raised, and that names an illegal operand. -/
theorem handlersRaiseOnlyOperandFaults : Obligations.HandlersRaiseOnlyOperandFaults := by
  intro i s t r hs h hr
  obtain ⟨c, hc, rfl⟩ := exec_faulted hs h hr
  refine ⟨hc.not_wellFormed, hc.illegal_operand.imp ?_ ?_⟩
  · rintro ⟨o, ho, h5, rfl⟩
    exact ⟨o, ho, h5, rfl⟩
  · rintro ⟨o, ho, h8, rfl⟩
    exact ⟨o, ho, h8, rfl⟩

/-! ### The program counter -/

/-- Settles O39: the pc of each effect, read off it. -/
theorem pcUpdateOfEveryInstruction : Obligations.PcUpdateOfEveryInstruction := by
  intro i s t _ h hnf
  rcases exec_next_cases h with he | ⟨c, rfl, -⟩
  · cases he with
    | hlt | ldi | prn | mul | add | cmp | push | pop | ret => rfl
    | call hr => exact ⟨_, hr, congrArg BitVec.toNat (s.decSP_reg _)⟩
    | jmp hr => exact ⟨_, hr, rfl⟩
    | jeqTaken hf hr => exact ⟨fun _ => ⟨_, hr, rfl⟩, fun hne => absurd hf hne⟩
    | jeqNotTaken hf => exact ⟨fun he => absurd he hf, fun _ => rfl⟩
    | jneTaken hf hr => exact ⟨fun _ => ⟨_, hr, rfl⟩, fun he => absurd he hf⟩
    | jneNotTaken hf => exact ⟨fun hne => absurd hf hne, fun _ => rfl⟩
  · exact absurd rfl (hnf _)

/-! ### Frames -/

/-- Settles O40: none of the three stores, compares, prints, halts or moves the stack pointer. -/
theorem loadAndArithmeticFrame : Obligations.LoadAndArithmeticFrame := by
  intro i s t hi h
  have hop : i.op ∉ [Op.cmp, .prn, .hlt, .push, .call] := by rcases hi with e | e | e <;> simp [e]
  have hsp : i.op.movesSP = false := by rcases hi with e | e | e <;> rw [e] <;> rfl
  simp only [List.mem_cons, List.not_mem_nil, or_false, not_or] at hop
  obtain ⟨hcmp, hprn, hhlt, hpush, hcall⟩ := hop
  refine ⟨fun q hd => exec_reg_eq h hd fun _ => hsp, exec_fl_eq h hcmp, exec_out_eq h hprn,
    fun a => by rw [exec_mem_eq h hpush hcall], (exec_status_eq_or_faulted h hhlt).imp_right ?_⟩
  rintro ⟨c, rfl⟩
  exact ⟨c, rfl⟩

/-- Settles O41: none of these has a destination, stores, or moves the stack pointer. -/
theorem compareJumpPrintHaltFrame : Obligations.CompareJumpPrintHaltFrame := by
  intro i s t hi h
  have hd : i.destination? = none :=
    Instr.destination?_eq_none (by rcases hi with e | e | e | e | e | e <;> simp [e])
  have hsp : i.op.movesSP = false := by rcases hi with e | e | e | e | e | e <;> rw [e] <;> rfl
  have hpush : i.op ≠ .push := fun e => by simp [e] at hi
  have hcall : i.op ≠ .call := fun e => by simp [e] at hi
  refine ⟨fun q => exec_reg_eq h (by simp [hd]) fun _ => hsp, fun a => by rw [exec_mem_eq h hpush hcall],
    exec_fl_eq h, exec_out_eq h, ?_⟩
  rcases exec_status_cases h with hs | ⟨rfl, hs⟩ | ⟨c, rfl⟩
  · exact .inl hs
  · exact .inr (.inl ⟨rfl, hs⟩)
  · exact .inr (.inr ⟨c, rfl⟩)

/-- Settles O42: neither has a destination, and the store is `exec_memSameBut`'s. -/
theorem pushCallFrame : Obligations.PushCallFrame := by
  intro i s t hi h
  have hd : i.destination? = none := Instr.destination?_eq_none (by rcases hi with e | e <;> simp [e])
  have hop : i.op ≠ .cmp ∧ i.op ≠ .prn ∧ i.op ≠ .hlt := by rcases hi with e | e <;> simp [e]
  obtain ⟨hcmp, hprn, hhlt⟩ := hop
  refine ⟨fun q hq => exec_reg_eq h (by simp [hd]) fun e => absurd e hq, exec_fl_eq h hcmp, exec_out_eq h hprn, ?_,
    exec_status_eq_or_faulted h hhlt⟩
  rintro a rfl
  exact exec_memSameBut h

/-- Settles O43: neither stores, compares, prints or halts. -/
theorem popReturnFrame : Obligations.PopReturnFrame := by
  intro i s t hi h
  have hop : i.op ≠ .cmp ∧ i.op ≠ .prn ∧ i.op ≠ .hlt ∧ i.op ≠ .push ∧ i.op ≠ .call := by
    rcases hi with e | e <;> simp [e]
  obtain ⟨hcmp, hprn, hhlt, hpush, hcall⟩ := hop
  exact ⟨fun q hq hd => exec_reg_eq h hd fun e => absurd e hq, exec_fl_eq h hcmp, exec_out_eq h hprn,
    fun a => by rw [exec_mem_eq h hpush hcall], exec_status_eq_or_faulted h hhlt⟩

/-! ### Stack pointer and output -/

/-- Settles O46: `exec_sp_cases`, its two moves read as arithmetic modulo 256. -/
theorem stackPointerMovesOnlyByStackInstructions : Obligations.StackPointerMovesOnlyByStackInstructions := by
  intro i s t h
  refine (exec_sp_cases h).imp_right (Or.imp ?_ ?_)
  · rintro ⟨hi, hsp⟩
    exact ⟨hi, by rw [hsp]; bv_omega⟩
  · rintro ⟨hi, hsp⟩
    exact ⟨hi, by rw [hsp]; bv_omega⟩

/-- Settles O49: what `exec_out_cases` says was gained is gained from any other output (`exec_withOut`). -/
theorem outputGrowsOnlyByPrint : Obligations.OutputGrowsOnlyByPrint := by
  intro i s t h
  rcases exec_out_cases h with ho | ⟨r, q, hi, hr, ho⟩
  · have he : t.out = s.out ++ [] := by rw [ho, List.append_nil]
    exact ⟨[], he, .inl rfl, exec_withOut h he⟩
  · exact ⟨[s.reg q], ho, .inr ⟨r, q, hi, hr, rfl⟩, exec_withOut h ho⟩

end Sys2Proof.Machine
end

section
/-! What every step keeps: the interrupt registers, FL once set, the running flag until a Halt, and the invariant `Inv`. -/

namespace Sys2Proof

/-- What the lookup of a default opcode finds is its own instruction, so the default assignment is injective (30_encoding.md
R73). -/
theorem defaultOpc_injective : OpcodeMap.Injective defaultOpc := by
  have lookup_self (op : Op) : lookupOp defaultOpc (defaultOpc op) = some op := by cases op <;> decide
  intro a b hab
  exact Option.some_injective _ (by rw [← lookup_self a, hab, lookup_self b])

theorem instrOf_destination {op : Op} {o1 o2 o : Byte} (h : (instrOf op o1 o2).destination? = some o) : o = o1 := by
  cases op <;> simp_all [instrOf, Instr.destination?]

theorem instrOf_sources {op : Op} {o1 o2 o : Byte} (h : o ∈ (instrOf op o1 o2).sources) : o = o1 ∨ o = o2 := by
  cases op <;> simp_all [instrOf, Instr.sources]

theorem instrOf_eq_hlt {op : Op} {o1 o2 : Byte} : instrOf op o1 o2 = .hlt ↔ op = .hlt := by
  cases op <;> simp [instrOf]

namespace Machine

section Step

variable {opc : OpcodeMap} {s t : State}

/-- A step either faults in its fetch or lookup, changing the status alone, or is the `exec` of a fetched instruction. -/
theorem stepWith_faulted_or_exec (h : stepWith opc s = .next t) :
    (∃ c, t = faultedFrom s c) ∨ ∃ i, exec i s = .next t := by
  obtain ⟨-, ⟨-, ht⟩ | ⟨-, -, ht⟩ | ⟨-, op, -, ht⟩⟩ := stepWith_next_cases h
  · exact .inl ⟨_, ht⟩
  · exact .inl ⟨_, ht⟩
  · exact .inr ⟨_, ht⟩

/-! ### The interrupt registers, FL and the output over a step -/

/-- A register that is neither general-purpose nor the stack pointer is written by no instruction (10_state.md R21). -/
theorem exec_reg_eq_of_reserved {i : Instr} (h : exec i s = .next t) {q : RegId} (h5 : 5 ≤ q.val) (hq : q ≠ .sp) :
    t.reg q = s.reg q := by
  rcases exec_next_cases h with he | ⟨c, rfl, -⟩
  · refine he.reg_eq (fun o ho hn => ?_) fun e => absurd e hq
    have ho5 := he.destination_lt ho
    simp only [Names] at hn
    omega
  · exact faultedFrom_reg s c q

theorem stepWith_reg_eq_of_reserved (h : stepWith opc s = .next t) {q : RegId} (h5 : 5 ≤ q.val) (hq : q ≠ .sp) :
    t.reg q = s.reg q := by
  rcases stepWith_faulted_or_exec h with ⟨c, rfl⟩ | ⟨i, hi⟩
  · exact faultedFrom_reg s c q
  · exact exec_reg_eq_of_reserved hi h5 hq

theorem stepWith_fl_cases (h : stepWith opc s = .next t) : t.fl = s.fl ∨ t.fl ≠ .unset := by
  rcases stepWith_faulted_or_exec h with ⟨c, rfl⟩ | ⟨i, hi⟩
  · exact .inl (faultedFrom_fl s c)
  · exact (exec_fl_cases hi).imp_right And.right

theorem stepWith_out (h : stepWith opc s = .next t) : ∃ e, t.out = s.out ++ e := by
  rcases stepWith_faulted_or_exec h with ⟨c, rfl⟩ | ⟨i, hi⟩
  · exact ⟨[], by simp⟩
  · rcases exec_out_cases hi with ho | ⟨r, q, -, -, ho⟩
    · exact ⟨[], by simp [ho]⟩
    · exact ⟨_, ho⟩

/-! ### Halting -/

/-- Under an injective assignment a step halts exactly when Halt's opcode could be fetched at the pc (R35, 40_engine.md R94). -/
theorem stepWith_halted_iff (hopc : opc.Injective) (h : stepWith opc s = .next t) :
    t.status = .halted ↔ s.pc ≤ 253 ∧ s.mem.read s.pc = opc .hlt := by
  obtain ⟨hs, ⟨hp, rfl⟩ | ⟨-, hop, rfl⟩ | ⟨hp, op, hop, ht⟩⟩ := stepWith_next_cases h
  · simp only [faultedFrom_status, reduceCtorEq, false_iff]
    omega
  · simp only [faultedFrom_status, reduceCtorEq, false_iff]
    exact fun hh => hop .hlt hh.2.symm
  · rw [exec_halted_iff hs ht, instrOf_eq_hlt, ← hop, hopc.eq_iff]
    exact ⟨fun e => ⟨hp, e⟩, And.right⟩

/-! ### The invariant over a step -/

/-- A faulted state meets the invariant when its start state does and its record is true (60_exceptions.md R149). -/
theorem Inv.faultedFrom {c : Cause} (hi : Inv opc s) (hr : RecordJustified opc s ⟨c, s.pc⟩) :
    Inv opc (faultedFrom s c) :=
  ⟨hi.mem, hi.pc, hr⟩

/-- What the handler of a fetched instruction raises is true of the state: an operand byte is read just behind the pc. -/
theorem Raises.recordJustified {op : Op} {c : Cause} (h : Raises (fetched op s) s c) (hp : s.pc ≤ 253) :
    RecordJustified opc s ⟨c, s.pc⟩ := by
  rcases h.illegal_operand with ⟨o, ho, h5, rfl⟩ | ⟨o, ho, h8, rfl⟩
  · exact ⟨rfl, hp, (instrOf_destination ho).symm, h5⟩
  · exact ⟨rfl, hp, (instrOf_sources ho).imp Eq.symm Eq.symm, h8⟩

/-- An effect keeps memory in canonical form: a store is to a byte address. -/
theorem Effect.mem_wf {i : Instr} (h : Effect i s t) (hm : s.mem.wf = true) : t.mem.wf = true := by
  rcases h.mem_cases with e | ⟨-, v, e⟩
  · rw [e]
    exact hm
  · rw [e]
    exact Memory.wf_write hm (BitVec.isLt _) v

/-- A status that the effect of a fetched instruction leaves is justified: only a Halt changed it. -/
theorem Effect.statusJustified {op : Op} (h : Effect (fetched op s) s t) (hs : s.status = .running) (hp : s.pc ≤ 253)
    (hop : opc op = s.mem.read s.pc) : StatusJustified opc t := by
  rcases h.status_cases with e | ⟨e, -⟩
  · simp only [StatusJustified, e, hs]
  · obtain rfl := instrOf_eq_hlt.mp e
    cases h
    exact ⟨hp, hop.symm⟩

theorem Inv.stepWith (hi : Inv opc s) (h : stepWith opc s = .next t) : Inv opc t := by
  obtain ⟨hs, ⟨hp, rfl⟩ | ⟨hp, hop, rfl⟩ | ⟨hp, op, hop, ht⟩⟩ := stepWith_next_cases h
  · exact hi.faultedFrom ⟨rfl, hp, rfl⟩
  · exact hi.faultedFrom ⟨rfl, hp, rfl, hop⟩
  · rcases exec_next_cases ht with he | ⟨c, rfl, hr⟩
    · have hpc : t.pc ≤ 256 := by
        have := he.pc_le
        omega
      exact ⟨he.mem_wf hi.mem, hpc, he.statusJustified hs hp hop⟩
    · exact hi.faultedFrom (hr.recordJustified hp)

end Step

/-- Settles O53: each of the three things a step can do keeps the invariant (`Inv.stepWith`). -/
theorem stepKeepsInvariant : Obligations.StepKeepsInvariant :=
  ⟨fun _ _ _ hi h => hi.stepWith h, fun _ _ hi h => hi.stepWith h⟩

/-- Settles O44: IM and IS are registers that no instruction writes. -/
theorem interruptRegistersNeverWritten : Obligations.InterruptRegistersNeverWritten := fun _ _ h =>
  ⟨stepWith_reg_eq_of_reserved h (by decide) (by decide), stepWith_reg_eq_of_reserved h (by decide) (by decide)⟩

/-- Settles O45: `exec_fl_cases`, and a Compare that completes has its effect. -/
theorem flagStateWrittenOnlyByCompare : Obligations.FlagStateWrittenOnlyByCompare := by
  refine ⟨fun i s t h hi => exec_fl_eq h hi, fun a b s t hs h ht => ?_, fun s t h hs => ?_⟩
  · rcases exec_next_cases h with he | ⟨c, rfl, -⟩
    · cases he with
      | cmp => exact FlagState.ne_unset_iff.mp (compareFlag_ne_unset _ _)
    · simp at ht
  · rcases stepWith_fl_cases h with e | hne
    · exact e ▸ hs
    · exact hne

/-- Settles O47: `stepWith_halted_iff` under the default assignment. -/
theorem onlyHaltHalts : Obligations.OnlyHaltHalts := fun _ _ h =>
  stepWith_halted_iff defaultOpc_injective h

/-- Settles O48: the flag is false in Halted alone, which only a Halt reaches. -/
theorem runningFlagClearedOnlyByHalt : Obligations.RunningFlagClearedOnlyByHalt := by
  refine ⟨fun _ => rfl, fun i s t hs h => ?_, fun s t h => ⟨?_, ?_, fun r hr => ?_⟩⟩
  · rw [State.running_eq_false]
    exact exec_halted_iff hs h
  · rw [State.running_eq_true, running_of_stepWith h]
    decide
  · rw [State.running_eq_false]
    exact stepWith_halted_iff defaultOpc_injective h
  · rw [State.running_eq_true, hr]
    nofun

end Machine

end Sys2Proof
end

section
/-! Construction and runs: the reset values, the program image in memory, and what holds after any number of steps. -/

namespace Sys2Proof.Machine

/-! ### The program image -/

/-- Bytes written from an address on leave what lies below it. -/
theorem Memory.read_writeBytes_lt (m : Memory) {a b : Nat} (bs : List Byte) (h : b < a) :
    (Memory.writeBytes m a bs).read b = m.read b := by
  induction bs generalizing m a with
  | nil => rfl
  | cons v bs ih =>
    rw [Memory.writeBytes, ih _ (by omega), Memory.read_write, if_neg (by omega)]

/-- From that address on memory reads as the bytes, and past their end as before. -/
theorem Memory.read_writeBytes_add (m : Memory) (a k : Nat) (bs : List Byte) :
    (Memory.writeBytes m a bs).read (a + k) = bs[k]?.getD (m.read (a + k)) := by
  induction bs generalizing m a k with
  | nil => rfl
  | cons v bs ih =>
    cases k with
    | zero =>
      rw [Memory.writeBytes, Memory.read_writeBytes_lt _ _ (by omega), Memory.read_write, if_pos (Nat.add_zero a)]
      rfl
    | succ k =>
      rw [Memory.writeBytes, show a + (k + 1) = a + 1 + k by omega, ih, Memory.read_write, if_neg (by omega),
        List.getElem?_cons_succ]

/-- An image written from address 0 into memory that is all zero (70_reset_and_hazards.md R173). -/
theorem Memory.read_image (image : List Byte) (a : Nat) :
    (Memory.writeBytes [] 0 image).read a = image[a]?.getD 0 := by
  simpa using Memory.read_writeBytes_add [] 0 a image

/-! ### Construction -/

theorem State.resetWith_reg (r : ResetRegs) {q : RegId} (h : q.val < 7) : (State.resetWith r).reg q = r[q.val] :=
  Vector.getElem_push_lt h

theorem State.resetWith_sp (r : ResetRegs) : (State.resetWith r).sp = 0xF4 :=
  Vector.getElem_push_eq

theorem boot_of_le {r : ResetRegs} {image : List Byte} (h : image.length ≤ 256) :
    boot r image = some ((State.resetWith r).setMem (Memory.writeBytes [] 0 image)) :=
  if_pos h

theorem boot_of_gt {r : ResetRegs} {image : List Byte} (h : 256 < image.length) : boot r image = none :=
  if_neg (Nat.not_le.mpr h)

/-- What construction gives: the reset state with the image in memory, for an image that fits. -/
theorem boot_eq_some {r : ResetRegs} {image : List Byte} {s : State} (h : boot r image = some s) :
    image.length ≤ 256 ∧ s = (State.resetWith r).setMem (Memory.writeBytes [] 0 image) := by
  by_cases hl : image.length ≤ 256
  · rw [boot_of_le hl] at h
    exact ⟨hl, (Option.some.inj h).symm⟩
  · rw [boot_of_gt (by omega)] at h
    cases h

/-- A running state at address 0 with canonical memory meets the invariant. -/
theorem Inv.resetWith_setMem (opc : OpcodeMap) (r : ResetRegs) {m : Memory} (hm : m.wf = true) :
    Inv opc ((State.resetWith r).setMem m) :=
  ⟨hm, Nat.zero_le _, trivial⟩

theorem Inv.boot (opc : OpcodeMap) {r : ResetRegs} {image : List Byte} {s : State} (h : boot r image = some s) :
    Inv opc s := by
  obtain ⟨hl, rfl⟩ := boot_eq_some h
  exact Inv.resetWith_setMem opc r (Memory.wf_writeBytes Memory.wf_nil (by simpa [Config.memorySize] using hl))

/-! ### Runs -/

section Run

variable {opc : OpcodeMap}

theorem Inv.runFor {s : State} (hi : Inv opc s) (k : Nat) : Inv opc (runFor opc k s) :=
  runFor_induction (P := fun s u => Inv opc s → Inv opc u) (fun _ => id) (fun _ _ _ h ih hi => ih (hi.stepWith h)) k s hi

theorem runFor_reg_eq_of_reserved {q : RegId} (h5 : 5 ≤ q.val) (hq : q ≠ .sp) (k : Nat) (s : State) :
    (runFor opc k s).reg q = s.reg q :=
  runFor_induction (P := fun s u => u.reg q = s.reg q) (fun _ => rfl)
    (fun _ _ _ h ih => ih.trans (stepWith_reg_eq_of_reserved h h5 hq)) k s

theorem runFor_out (k : Nat) (s : State) : ∃ e, (runFor opc k s).out = s.out ++ e := by
  refine runFor_induction (P := fun s u => ∃ e, u.out = s.out ++ e) (fun s => ⟨[], by simp⟩) ?_ k s
  rintro s t u h ⟨e', hu⟩
  obtain ⟨e, ht⟩ := stepWith_out h
  exact ⟨e ++ e', by rw [hu, ht, List.append_assoc]⟩

end Run

/-! ### The statements -/

/-- Settles O51: `boot_of_le` names the state, `Memory.read_image` its bytes. -/
theorem resetValuesAndProgramImage : Obligations.ResetValuesAndProgramImage := by
  intro r image
  refine ⟨fun hl => ⟨_, boot_of_le hl, fun k => State.resetWith_reg r k.isLt, State.resetWith_sp r, rfl, rfl, rfl, rfl,
    fun a ha => ?_, fun a ha => ?_⟩, boot_of_gt⟩
  · rw [State.setMem_mem, Memory.read_image, List.getElem?_eq_getElem ha, Option.getD_some]
  · rw [State.setMem_mem, Memory.read_image, List.getElem?_eq_none ha, Option.getD_none]

/-- Settles O52: at reset memory is empty, the pc 0 and the status Running. -/
theorem invariantHoldsAtReset : Obligations.InvariantHoldsAtReset :=
  ⟨fun opc r => Inv.resetWith_setMem opc r Memory.wf_nil, Inv.resetWith_setMem defaultOpc Config.resetRegs Memory.wf_nil⟩

/-- Settles O54: construction meets the invariant and every step keeps it; the interrupt registers and the output by the same
induction, a later run being a run from the state reached. -/
theorem everyRunFromBootKeepsInvariant : Obligations.EveryRunFromBootKeepsInvariant := by
  intro opc r image s hb k n
  obtain ⟨-, hs⟩ := boot_eq_some hb
  have hreset {q : RegId} (h7 : q.val < 7) : s.reg q = r[q.val] := by
    rw [hs, State.setMem_reg, State.resetWith_reg r h7]
  refine ⟨(Inv.boot opc hb).runFor k, ?_, ?_, ?_⟩
  · rw [runFor_reg_eq_of_reserved (by decide) (by decide), hreset (by decide)]
    rfl
  · rw [runFor_reg_eq_of_reserved (by decide) (by decide), hreset (by decide)]
    rfl
  · rw [runFor_add]
    exact runFor_out n _

/-- Settles O50: joining distributes over the byte added at the end. -/
theorem outputTextIsDecimalLines : Obligations.OutputTextIsDecimalLines := by
  refine ⟨rfl, fun out v => ?_⟩
  simp only [renderOut, List.map_append, String.join_append, List.map_singleton, String.join_cons, String.join_nil,
    String.append_empty]

end Sys2Proof.Machine
end

section
/-! Memory: the port, the canonical form as the only list of its contents, and the accesses of the instructions: what an
instruction does depends on memory through the byte at SP alone, and a pushed byte may be fetched next (20_memory.md R50 to
R63). -/

namespace Sys2Proof.Machine

/-! ### The memory port -/

/-- A read depends on the state by the byte at its address alone. -/
theorem memRead_congr {s t : State} {a : Nat} (h : t.mem.read a = s.mem.read a) : memRead t a = memRead s a := by
  rw [memRead, memRead, h]

theorem memWrite_error {s : State} {a : Nat} (v : Byte) (h : 256 ≤ a) :
    memWrite s a v = .error (.memoryAddressOutOfRange a) :=
  if_neg (Nat.not_lt.mpr h)

/-- Settles O22: inside 0..255 by `Memory.read_write`, outside by the port's own check; a push address is a byte. -/
theorem memoryPortReadsLastWrite : Obligations.MemoryPortReadsLastWrite := by
  intro s a v
  refine ⟨fun ha => ?_, fun ha => ⟨memRead_error ha, memWrite_error v ha⟩, ⟨_, memWrite_push s v⟩⟩
  have ha' : a < 256 := Nat.lt_succ_of_le ha
  refine ⟨memRead_ok ha', _, memWrite_ok v ha', ?_, fun b hb => memRead_congr ?_, fun _ => rfl, rfl, rfl, rfl, rfl⟩
  · rw [memRead_ok ha', State.setMem_mem, Memory.read_write, if_pos rfl]
  · rw [State.setMem_mem, Memory.read_write, if_neg hb]

/-! ### Canonical memories -/

theorem Memory.read_cons_same (c : Host.Cell) (m : Memory) : Memory.read (c :: m) c.1 = c.2 :=
  if_pos rfl

theorem Memory.read_cons_ne {c : Host.Cell} {a : Nat} (m : Memory) (h : c.1 ≠ a) : Memory.read (c :: m) a = m.read a :=
  if_neg h

/-- At its first address a canonical list reads differently from one that begins later. -/
theorem Memory.read_head_ne {lo : Nat} {c : Host.Cell} {m m' : Memory} (h : Memory.wfFrom lo (c :: m) = true)
    (h' : Memory.wfFrom (c.1 + 1) m' = true) : Memory.read (c :: m) c.1 ≠ m'.read c.1 := by
  obtain ⟨-, -, hv, -⟩ := (Memory.wfFrom_cons lo c m).mp h
  rwa [Memory.read_cons_same, Memory.read_lt_of_wfFrom h' (Nat.lt_succ_self _)]

/-- A canonical list that is not empty is canonical from its first address on. -/
theorem Memory.wfFrom_of_le_head {lo lo' : Nat} {c : Host.Cell} {m : Memory} (h : Memory.wfFrom lo (c :: m) = true)
    (hle : lo' ≤ c.1) : Memory.wfFrom lo' (c :: m) = true :=
  (Memory.wfFrom_cons lo' c m).mpr ⟨hle, ((Memory.wfFrom_cons lo c m).mp h).2⟩

/-- The tails of two canonical lists with the same head read the same when the lists do: at the head's address both are 0. -/
theorem Memory.read_tail_eq {c : Host.Cell} {m n : Memory} (hm : Memory.wfFrom (c.1 + 1) m = true)
    (hn : Memory.wfFrom (c.1 + 1) n = true) {a : Nat} (hr : Memory.read (c :: m) a = Memory.read (c :: n) a) :
    m.read a = n.read a := by
  by_cases ha : c.1 = a
  · subst ha
    rw [Memory.read_lt_of_wfFrom hm (Nat.lt_succ_self _), Memory.read_lt_of_wfFrom hn (Nat.lt_succ_self _)]
  · rwa [Memory.read_cons_ne m ha, Memory.read_cons_ne n ha] at hr

/-- Two canonical lists that read the same begin at the same address, where neither is 0, hold the same byte there, and have
tails that read the same. -/
theorem Memory.eq_of_read_eq {lo : Nat} {m m' : Memory} (h : Memory.wfFrom lo m = true) (h' : Memory.wfFrom lo m' = true)
    (hr : ∀ a, a < 256 → m.read a = m'.read a) : m = m' := by
  induction m generalizing lo m' with
  | nil =>
    cases m' with
    | nil => rfl
    | cons d n =>
      obtain ⟨-, hd, -, -⟩ := (Memory.wfFrom_cons lo d n).mp h'
      exact absurd (hr _ hd).symm (Memory.read_head_ne h' rfl)
  | cons c m ih =>
    obtain ⟨-, hc, -, hm⟩ := (Memory.wfFrom_cons lo c m).mp h
    cases m' with
    | nil => exact absurd (hr _ hc) (Memory.read_head_ne h rfl)
    | cons d n =>
      obtain ⟨-, hd, -, hn⟩ := (Memory.wfFrom_cons lo d n).mp h'
      have haddr : c.1 = d.1 := by
        rcases Nat.lt_trichotomy c.1 d.1 with hlt | heq | hgt
        · exact absurd (hr _ hc) (Memory.read_head_ne h (Memory.wfFrom_of_le_head h' hlt))
        · exact heq
        · exact absurd (hr _ hd).symm (Memory.read_head_ne h' (Memory.wfFrom_of_le_head h hgt))
      have hbyte : c.2 = d.2 := by
        rw [← Memory.read_cons_same c m, hr _ hc, haddr, Memory.read_cons_same]
      obtain rfl : c = d := Prod.ext haddr hbyte
      rw [ih hm hn fun a ha => Memory.read_tail_eq hm hn (hr a ha)]

/-- Settles O23: `Memory.eq_of_read_eq` from address 0 on. -/
theorem canonicalMemoriesAreEqualData : Obligations.CanonicalMemoriesAreEqualData :=
  fun _ _ h h' hr => Memory.eq_of_read_eq h h' hr

/-! ### Data accesses -/

/-- An effect depends on memory by Pop's and Return's read at SP alone (20_memory.md R53). -/
theorem Effect.withMem {i : Instr} {s t : State} (h : Effect i s t) {m : Memory}
    (hsp : i.op = .pop ∨ i.op = .ret → m.read s.sp.toNat = s.mem.read s.sp.toNat) :
    ∃ m', Effect i { s with mem := m } { t with mem := m' } := by
  cases h with
  | push hr => exact ⟨_, .push (s := { s with mem := m }) hr⟩
  | call hr => exact ⟨_, .call (s := { s with mem := m }) hr⟩
  | pop hr hd =>
    rw [← hsp (.inl rfl)]
    exact ⟨m, .pop (s := { s with mem := m }) hr hd⟩
  | ret =>
    rw [← hsp (.inr rfl)]
    exact ⟨m, .ret (s := { s with mem := m })⟩
  | _ =>
    refine ⟨m, ?_⟩
    constructor <;> assumption

/-- The operand checks read no memory. -/
theorem Raises.withMem {i : Instr} {s : State} {c : Cause} (h : Raises i s c) (m : Memory) :
    Raises i { s with mem := m } c := by
  cases h with
  | destination ho h5 => exact .destination ho h5
  | source hd hj hn hf => exact .source hd hj hn hf

theorem exec_withMem {i : Instr} {s t : State} (h : exec i s = .next t) {m : Memory}
    (hsp : i.op = .pop ∨ i.op = .ret → m.read s.sp.toNat = s.mem.read s.sp.toNat) :
    ∃ m', exec i { s with mem := m } = .next { t with mem := m' } := by
  rcases exec_next_cases h with he | ⟨c, rfl, hr⟩
  · obtain ⟨m', he'⟩ := he.withMem hsp
    exact ⟨m', he'.exec_eq⟩
  · exact ⟨m, (hr.withMem m).exec_eq⟩

/-- Settles O24: the writes are `exec_mem_cases`, and with another memory the next state is the same but for memory. -/
theorem dataAccessesAreTheStacks : Obligations.DataAccessesAreTheStacks := by
  intro i s t h
  refine ⟨fun _ => exec_memSameBut h, fun hp hc a => by rw [exec_mem_eq h hp hc], fun m hsp => ?_⟩
  obtain ⟨m', hu⟩ := exec_withMem h hsp
  exact ⟨_, hu, rfl⟩

/-! ### A pushed byte as the next opcode -/

/-- Settles O25: the Push moves the pc by 2, onto its store address, and leaves the two bytes after it. -/
theorem pushedByteIsFetchedNext : Obligations.PushedByteIsFetchedNext := by
  intro s r q hr hpc haddr
  have hread (a : Nat) : (Memory.write s.mem (pushAddress s) (s.decSP.reg q)).read a =
      if a = s.pc + 2 then s.decSP.reg q else s.mem.read a := by
    rw [Memory.read_write, haddr]
  refine ⟨_, (Effect.push hr).exec_eq, _, fetch_ok (Nat.add_le_add_right hpc 2), ?_, ?_, ?_⟩
  · exact (hread (s.pc + 2)).trans ((if_pos rfl).trans (s.decSP_reg q))
  · exact (hread (s.pc + 3)).trans (if_neg (by omega))
  · exact (hread (s.pc + 4)).trans (if_neg (by omega))

end Sys2Proof.Machine
end

section
/-! Encoding: what each format reads, when a byte list or a window decodes, and the step and the runs of the instruction an
opcode byte names, under any opcode assignment (30_encoding.md R70 to R79). -/

namespace Sys2Proof

/-! ### Operand bytes and formats -/

/-- The operand bytes an instruction keeps are the first of the two fetched, as many as its format has (R71). -/
theorem operandBytes_instrOf (op : Op) (o1 o2 : Byte) :
    operandBytes (instrOf op o1 o2) = [o1, o2].take (op.format.length - 1) := by
  cases op <;> rfl

theorem instrOf_eq_of_format_n {op : Op} (h : op.format = .n) (o1 o2 o1' o2' : Byte) :
    instrOf op o1 o2 = instrOf op o1' o2' := by
  cases op <;> cases h <;> rfl

theorem instrOf_eq_of_format_r {op : Op} (h : op.format = .r) (o1 o2 o2' : Byte) :
    instrOf op o1 o2 = instrOf op o1 o2' := by
  cases op <;> cases h <;> rfl

section Decode

variable {opc : OpcodeMap}

/-! ### Byte lists -/

/-- A list of bytes decodes to an instruction exactly when its first byte selects the instruction's name and the instruction's
operand bytes follow. -/
theorem decode_cons_eq_ok_iff {b : Byte} {bs rest : List Byte} {i : Instr} :
    decode opc (b :: bs) = .ok (i, rest) ↔ lookupOp opc b = some i.op ∧ bs = operandBytes i ++ rest := by
  constructor
  · intro h
    cases hl : lookupOp opc b with
    | none => simp [decode, hl] at h
    | some op =>
      simp only [decode, hl] at h
      split at h <;> cases h
      all_goals
        rw [instrOf_op, operandBytes_instrOf, ‹op.format = _›]
        exact ⟨rfl, rfl⟩
  · rintro ⟨hl, rfl⟩
    simp only [decode, hl]
    cases i <;> rfl

/-- Settles O5: the opcode of the encoding selects the instruction's name. -/
theorem decodeOfEncodeGivesInstruction : Obligations.DecodeOfEncodeGivesInstruction :=
  fun _ hopc i _ => decode_cons_eq_ok_iff.mpr ⟨lookupOp_self hopc i.op, rfl⟩

/-- Settles O6: the name a first byte selects is assigned that byte, whether or not the assignment is injective. -/
theorem decodedBytesAreTheEncoding : Obligations.DecodedBytesAreTheEncoding := by
  intro opc bytes rest i h
  cases bytes with
  | nil => cases h
  | cons b bs =>
    obtain ⟨hl, rfl⟩ := decode_cons_eq_ok_iff.mp h
    rw [← lookupOp_some hl]
    rfl

/-! ### Windows -/

/-- A window decodes exactly when some instruction is assigned its opcode byte (R77). -/
theorem exists_decodeWindow_eq_ok_iff {w : Window} : (∃ i, decodeWindow opc w = .ok i) ↔ ∃ op, opc op = w.opcode := by
  cases hl : lookupOp opc w.opcode with
  | none => simp [decodeWindow, hl, lookupOp_none.mp hl]
  | some op => simpa [decodeWindow, hl] using ⟨op, lookupOp_some hl⟩

/-- Under an injective assignment an instruction's opcode decodes to it, with the operand bytes of the window (R78). -/
theorem decodeWindow_opcode (hopc : opc.Injective) (op : Op) (o1 o2 : Byte) :
    decodeWindow opc ⟨opc op, o1, o2⟩ = .ok (instrOf op o1 o2) := by
  simp only [decodeWindow, lookupOp_self hopc]

/-- Settles O7: the opcode decodes to `instrOf` of its name, which does not look at the bytes the format ignores. -/
theorem operandBytesNeverMakeEncodingIllegal : Obligations.OperandBytesNeverMakeEncodingIllegal := by
  intro opc hopc op o1 o2 o1' o2'
  simp only [decodeWindow_opcode hopc]
  exact ⟨⟨_, rfl, instrOf_op op o1 o2⟩, fun hn => congrArg _ (instrOf_eq_of_format_n hn ..),
    fun hr => congrArg _ (instrOf_eq_of_format_r hr ..)⟩

end Decode

/-! ### The default table (R72) -/

/-- The assigned bytes are those of R77's list, which has them in rising order. -/
theorem exists_defaultOpc_eq_iff {b : Byte} : (∃ op, defaultOpc op = b) ↔
    b ∈ ([0x01, 0x11, 0x45, 0x46, 0x47, 0x50, 0x54, 0x55, 0x56, 0x82, 0xA0, 0xA2, 0xA7] : List Byte) := by
  have hperm : (Op.all.map defaultOpc).Perm
      [0x01, 0x11, 0x45, 0x46, 0x47, 0x50, 0x54, 0x55, 0x56, 0x82, 0xA0, 0xA2, 0xA7] := by decide
  rw [← hperm.mem_iff, List.mem_map]
  exact exists_congr fun op => (and_iff_right op.mem_all).symm

/-- One row of the table: the encoding and the decoding of an instruction name with its operand bytes. -/
theorem defaultOpc_row (op : Op) (o1 o2 : Byte) :
    encode defaultOpc (instrOf op o1 o2) = defaultOpc op :: [o1, o2].take (op.format.length - 1) ∧
      decodeWindow defaultOpc ⟨defaultOpc op, o1, o2⟩ = .ok (instrOf op o1 o2) := by
  rw [encode, instrOf_op, operandBytes_instrOf]
  exact ⟨rfl, decodeWindow_opcode defaultOpc_injective op o1 o2⟩

/-- Settles O1: the 13 rows of `defaultOpc_row`. -/
theorem opcodeTableEncodesAndDecodes : Obligations.OpcodeTableEncodesAndDecodes := fun o1 o2 =>
  have row (op : Op) := defaultOpc_row op o1 o2
  ⟨row .hlt, row .ldi, row .prn, row .mul, row .add, row .cmp, row .push, row .pop, row .call, row .ret, row .jmp, row .jeq,
    row .jne⟩

/-- Settles O4: each default opcode is looked up as its own instruction. -/
theorem defaultOpcodeMapInjective : Obligations.DefaultOpcodeMapInjective :=
  defaultOpc_injective

namespace Machine

section Step

variable {opc : OpcodeMap} {s : State}

/-! ### The step of an opcode byte -/

/-- An opcode that no instruction is assigned faults the step (40_engine.md R92). -/
theorem stepWith_unassigned (hs : s.status = .running) (hp : s.pc ≤ 253) (hop : ∀ op, opc op ≠ s.mem.read s.pc) :
    stepWith opc s = .next (faultedFrom s (.unknownInstruction (s.mem.read s.pc))) := by
  obtain ⟨t, ht⟩ := stepWith_exists_next opc hs
  obtain ⟨-, ⟨hp', -⟩ | ⟨-, -, rfl⟩ | ⟨-, op, hop', -⟩⟩ := stepWith_next_cases ht
  · omega
  · exact ht
  · exact absurd hop' (hop op)

/-- Under an injective assignment the opcode of a name runs that instruction (R73, 40_engine.md R93). -/
theorem stepWith_assigned (hopc : opc.Injective) (hs : s.status = .running) (hp : s.pc ≤ 253) {op : Op}
    (hop : s.mem.read s.pc = opc op) : stepWith opc s = exec (fetched op s) s := by
  obtain ⟨t, ht⟩ := stepWith_exists_next opc hs
  obtain ⟨-, ⟨hp', -⟩ | ⟨-, hne, -⟩ | ⟨-, op', hop', he⟩⟩ := stepWith_next_cases ht
  · omega
  · exact absurd hop.symm (hne op)
  · obtain rfl : op' = op := hopc (hop'.trans hop)
    rw [ht, he]

end Step

/-- Settles O3: windows by the list of the assigned bytes, and a byte outside it faults the step. -/
theorem onlyThirteenOpcodeBytesAreAssigned : Obligations.OnlyThirteenOpcodeBytesAreAssigned := by
  refine ⟨fun w => exists_decodeWindow_eq_ok_iff.trans exists_defaultOpc_eq_iff, fun s hs hp hb => ?_⟩
  exact stepWith_unassigned hs hp fun op hop => hb (exists_defaultOpc_eq_iff.mp ⟨op, hop⟩)

/-- Settles O10: `stepWith_assigned`. -/
theorem stepUnderAnyOpcodeMapRunsNamedInstruction : Obligations.StepUnderAnyOpcodeMapRunsNamedInstruction :=
  fun _ hopc _ _ hs hp hop => stepWith_assigned hopc hs hp hop

/-! ### The end of a run (40_engine.md R96) -/

section Run

variable {opc : OpcodeMap} {s t u : State}

/-- An end of either kind is a state of the run that is no longer Running. -/
theorem ends_iff : EndsWell opc s t ∨ EndsBadly opc s t ↔ ∃ k, runFor opc k s = t ∧ t.status ≠ .running := by
  constructor
  · rintro (⟨k, hk, ht⟩ | ⟨k, r, hk, ht⟩) <;> exact ⟨k, hk, by simp [ht]⟩
  · rintro ⟨k, hk, ht⟩
    cases hst : t.status with
    | running => exact absurd hst ht
    | halted => exact .inl ⟨k, hk, hst⟩
    | faulted r => exact .inr ⟨k, r, hk, hst⟩

/-- A run stays where it ended. -/
theorem runFor_add_of_ended {k : Nat} (h : (runFor opc k s).status ≠ .running) (n : Nat) :
    runFor opc (k + n) s = runFor opc k s := by
  rw [runFor_add, runFor_of_not_running h]

theorem ended_unique (ht : EndsWell opc s t ∨ EndsBadly opc s t) (hu : EndsWell opc s u ∨ EndsBadly opc s u) : t = u := by
  obtain ⟨k, rfl, hk⟩ := ends_iff.mp ht
  obtain ⟨n, rfl, hn⟩ := ends_iff.mp hu
  calc runFor opc k s = runFor opc (k + n) s := (runFor_add_of_ended hk n).symm
    _ = runFor opc (n + k) s := by rw [Nat.add_comm]
    _ = runFor opc n s := runFor_add_of_ended hn k

/-- A state that steps to itself is where its run always stands. -/
theorem runFor_of_step_self (h : stepWith opc s = .next s) (k : Nat) : runFor opc k s = s := by
  induction k with
  | zero => rfl
  | succ k ih => rw [runFor_succ_of_next h, ih]

end Run

/-- Settles O55: a run that does not go on forever reaches a state that is not Running, and stays there. -/
theorem everyRunEndsInOneWay : Obligations.EveryRunEndsInOneWay := by
  intro opc
  refine ⟨fun s => ?_, fun _ _ _ => ended_unique, fun s t ht hnever => ?_⟩
  · by_cases h : ∃ k, (runFor opc k s).status ≠ .running
    · obtain ⟨k, hk⟩ := h
      exact .inr ((ends_iff.mpr ⟨k, rfl, hk⟩).imp (⟨_, ·⟩) (⟨_, ·⟩))
    · exact .inl (not_exists_not.mp h)
  · obtain ⟨k, rfl, hk⟩ := ends_iff.mp ht
    exact hk (hnever k)

/-! ### A Jump to its own address -/

theorem State.jumpTo_self {s : State} {v : Byte} (h : v.toNat = s.pc) : s.jumpTo v = s := by
  rw [State.jumpTo, h]

/-- A Jump through a register that holds its own address leaves the state as it is (44_branch.md R130). -/
theorem exec_jmp_self {s : State} {r : Byte} {q : RegId} (hr : Names r q) (hpc : (s.reg q).toNat = s.pc) :
    exec (.jmp r) s = .next s := by
  rw [(Effect.jmp hr).exec_eq, State.jumpTo_self hpc]

/-- Settles O56: the step of such a Jump leads back to the state itself. -/
theorem jumpToItselfNeverEnds : Obligations.JumpToItselfNeverEnds := by
  intro opc hopc s q hs hp hop hr hpc k
  have hstep : stepWith opc s = .next s := (stepWith_assigned hopc hs hp hop).trans (exec_jmp_self hr hpc)
  rw [runFor_of_step_self hstep, hs]

end Machine

end Sys2Proof
end

section
/-! The engine's step (40_engine.md R91 to R97): what it does with the window it fetches, and the host's placing of a window
where the next step fetches it. -/

namespace Sys2Proof

/-- A table word stands for an instruction exactly when its window decodes to it. -/
theorem decodeTableWord_eq_some_iff {nbits w : Nat} {i : Instr} :
    decodeTableWord nbits w = some i ↔ decodeWindow defaultOpc (windowOfWord nbits w) = .ok i := by
  unfold decodeTableWord
  cases decodeWindow defaultOpc (windowOfWord nbits w) <;> simp

namespace Machine

/-! ### The step by the window fetched -/

section Step

variable {opc : OpcodeMap} {s : State}

/-- A running state runs the instruction its fetched window decodes to, with nothing around the handler (R93). -/
theorem stepWith_of_fetch {w : Window} {i : Instr} (hs : s.status = .running) (hf : fetch s = .ok w)
    (hd : decodeWindow opc w = .ok i) : stepWith opc s = exec i s := by
  refine stepWith_exec opc hs ?_
  calc fetchInstr opc s = lookupInstr opc w := by rw [fetchInstr, hf]; rfl
    _ = .ok i := by rw [lookupInstr, hd]

/-- A fetch that reaches past address 255 faults the step, whatever the opcode byte is (R91). -/
theorem stepWith_fetch_fault (hs : s.status = .running) (hp : 254 ≤ s.pc) :
    stepWith opc s = .next (faultedFrom s (.memoryAddressOutOfRange (max s.pc 256))) :=
  stepWith_error opc hs (by rw [fetchInstr, fetch_error hp]; rfl)

end Step

/-- Settles O8: at pc 253 or below the fetch gives the three bytes. -/
theorem stepRunsDecodedInstruction : Obligations.StepRunsDecodedInstruction :=
  fun _ _ hs hp hd => stepWith_of_fetch hs (fetch_ok hp) hd

/-- Settles O9: one lemma about the step for each clause, the last by the injectivity of the default opcodes. -/
theorem stepIsFetchLookupInvoke : Obligations.StepIsFetchLookupInvoke := fun _ hs =>
  ⟨stepWith_fetch_fault hs, stepWith_unassigned hs,
    fun _ hp hop => stepWith_assigned defaultOpc_injective hs hp hop.symm⟩

/-- Settles O12: `stepWith_halted` and `stepWith_faulted` under the default opcodes. -/
theorem terminalStatesAnswerNoStep : Obligations.TerminalStatesAnswerNoStep :=
  ⟨fun _ => stepWith_halted defaultOpc, fun _ _ => stepWith_faulted defaultOpc⟩

/-! ### Placing a window -/

theorem State.poke_of_lt (s : State) {a : Nat} (v : Byte) (h : a < 256) : s.poke a v = s.setMem (s.mem.write a v) :=
  if_pos h

section Place

variable {s : State} (w : Window)

/-- Where a whole window fits, placing it writes its three bytes from the program counter on and touches memory alone. -/
theorem State.placeWindow_eq_setMem (h : s.pc ≤ 253) :
    s.placeWindow w = s.setMem (Memory.writeBytes s.mem s.pc [w.opcode, w.o1, w.o2]) := by
  rw [State.placeWindow, State.poke_of_lt s _ (by omega), State.poke_of_lt _ _ (by omega), State.poke_of_lt _ _ (by omega)]
  rfl

/-- The next fetch reads the window placed. -/
theorem fetch_placeWindow (h : s.pc ≤ 253) : fetch (s.placeWindow w) = .ok w := by
  have hread (k : Nat) := Memory.read_writeBytes_add s.mem s.pc k [w.opcode, w.o1, w.o2]
  have hread0 : (Memory.writeBytes s.mem s.pc [w.opcode, w.o1, w.o2]).read s.pc = w.opcode := hread 0
  rw [State.placeWindow_eq_setMem w h, fetch_ok (State.setMem_pc s _ ▸ h), State.setMem_mem, State.setMem_pc, hread0, hread 1,
    hread 2]
  rfl

/-- A byte outside the three fetched addresses keeps its value. -/
theorem State.placeWindow_read_ne (h : s.pc ≤ 253) {a : Nat} (h0 : a ≠ s.pc) (h1 : a ≠ s.pc + 1) (h2 : a ≠ s.pc + 2) :
    (s.placeWindow w).mem.read a = s.mem.read a := by
  rw [State.placeWindow_eq_setMem w h, State.setMem_mem]
  rcases Nat.lt_or_ge a s.pc with hlt | hge
  · exact Memory.read_writeBytes_lt _ _ hlt
  · obtain ⟨k, rfl⟩ := Nat.exists_eq_add_of_le hge
    rw [Memory.read_writeBytes_add, List.getElem?_eq_none (show 3 ≤ k by omega), Option.getD_none]

end Place

/-- Settles O14: the placed window is what the step fetches, and placing it is three writes to memory. -/
theorem placedTableWordIsStepped : Obligations.PlacedTableWordIsStepped := by
  intro s nbits w i hs hp hd
  unfold State.withFetchWord
  refine ⟨?_, fun a => State.placeWindow_read_ne _ hp, ?_⟩
  · have hrun : (s.placeWindow (windowOfWord nbits w)).status = .running := by
      rw [State.placeWindow_eq_setMem _ hp, State.setMem_status, hs]
    exact stepWith_of_fetch hrun (fetch_placeWindow _ hp) (decodeTableWord_eq_some_iff.mp hd)
  · rw [State.placeWindow_eq_setMem _ hp]
    rfl

end Machine

end Sys2Proof
end

section
/-! Halt, LoadImmediate and Print (41_halt_load_print.md): the encoding of each is its row of the table, what it does when it
completes is its `Effect`, and its operand fault is a `Raises`. -/

namespace Sys2Proof.Machine

/-! ### Frames and faults of one operand -/

/-- A register write leaves the other registers. -/
theorem State.setReg_regsSameBut (s : State) (d : RegId) (v : Byte) : RegsSameBut [d] s (s.setReg d v) := fun q hq =>
  s.reg_setReg_ne d q v (List.ne_of_not_mem_cons hq)

/-- An instruction without a destination that reads its sources unconditionally raises an illegal first source
(60_exceptions.md R148). -/
theorem Raises.first_source {i : Instr} {s : State} {o : Byte} {os : List Byte} (hd : i.destination? = none)
    (he : i.op ≠ .jeq) (hn : i.op ≠ .jne) (hs : i.sources = o :: os) (h8 : 8 ≤ o.toNat) :
    Raises i s (.registerIndexOutOfRange o) := by
  refine .source (by simp [hd]) (absurd · he) (absurd · hn) ?_
  rw [hs, List.find?_cons_of_pos (by simp [sourceLegal_false h8])]

/-! ### The statements -/

/-- Settles O26: the effect of Halt, and a fetch that reaches past address 255 faults before any lookup. -/
theorem haltStopsWithPcUnchanged : Obligations.HaltStopsWithPcUnchanged :=
  ⟨defaultOpc_row .hlt,
    fun _ => ⟨_, Effect.hlt.exec_eq, rfl, rfl, fun _ _ => rfl, rfl, fun _ => rfl, rfl⟩,
    fun _ hs hp => stepWith_fetch_fault hs hp⟩

/-- Settles O27: the effect of LoadImmediate is a register write and an advance of the pc; a reserved destination is raised. -/
theorem loadImmediateWritesItsValue : Obligations.LoadImmediateWritesItsValue := by
  refine ⟨defaultOpc_row .ldi, fun s r v d hr hd => ?_, fun s r v h5 => (Raises.destination rfl h5).exec_eq⟩
  exact ⟨_, (Effect.ldi hr hd).exec_eq, s.reg_setReg_same d v, rfl, s.setReg_regsSameBut d v, rfl, rfl, fun _ => rfl, rfl⟩

/-- Settles O28: the effect of Print is an output byte and an advance of the pc; an illegal source is raised. -/
theorem printEmitsRegister : Obligations.PrintEmitsRegister := by
  refine ⟨defaultOpc_row .prn, fun s r q hr => ?_, fun s r h8 => ?_⟩
  · exact ⟨_, (Effect.prn hr).exec_eq, rfl, rfl, fun _ _ => rfl, rfl, rfl, fun _ => rfl⟩
  · exact (Raises.first_source rfl (by simp [Instr.op]) (by simp [Instr.op]) rfl h8).exec_eq

end Sys2Proof.Machine
end

section
/-! Multiply, Add and Compare (42_arith_compare.md), and a branch on what Compare left in FL. What each does when it
completes is its `Effect`; the three share the operand fault of a second source. -/

namespace Sys2Proof

/-- The conditional branches have one source operand (10_state.md R27). -/
theorem Instr.op_ne_branch_of_two_sources {i : Instr} {a b : Byte} (h : i.sources = [a, b]) :
    i.op ≠ .jeq ∧ i.op ≠ .jne := by
  cases i <;> simp_all [Instr.sources, Instr.op]

namespace Machine

/-! ### The flag of a comparison (R113) -/

theorem compareFlag_of_gt {a b : Byte} (h : b.toNat < a.toNat) : compareFlag a b = .greater := by
  rw [compareFlag, if_neg (by rintro rfl; omega), if_pos h]

theorem compareFlag_of_lt {a b : Byte} (h : a.toNat < b.toNat) : compareFlag a b = .less := by
  rw [compareFlag, if_neg (by rintro rfl; omega), if_neg (by omega)]

theorem compareFlag_eq_equal_iff {a b : Byte} : compareFlag a b = .equal ↔ a = b := by
  refine ⟨fun h => ?_, fun h => if_pos h⟩
  rcases Nat.lt_trichotomy a.toNat b.toNat with hlt | heq | hgt
  · simp [compareFlag_of_lt hlt] at h
  · exact BitVec.eq_of_toNat_eq heq
  · simp [compareFlag_of_gt hgt] at h

/-! ### The fault of a second source -/

/-- An instruction of two sources raises an illegal second one when its destination and first source are legal
(60_exceptions.md R148). -/
theorem Raises.second_source {i : Instr} {s : State} {a b : Byte} (hs : i.sources = [a, b])
    (hd : ∀ d, i.destination? = some d → d.toNat < 5) (ha : a.toNat < 8) (hb : 8 ≤ b.toNat) :
    Raises i s (.registerIndexOutOfRange b) := by
  obtain ⟨hjeq, hjne⟩ := Instr.op_ne_branch_of_two_sources hs
  refine .source hd (absurd · hjeq) (absurd · hjne) ?_
  have hlegal : sourceLegal a = true := decide_eq_true ha
  simp [hs, hlegal, sourceLegal_false hb]

/-- The second source of an instruction whose first operand is destination and source at once. -/
theorem Raises.second_source_of_destination {i : Instr} {s : State} {a b : Byte} (hs : i.sources = [a, b])
    (hd : i.destination? = some a) (ha : a.toNat < 5) (hb : 8 ≤ b.toNat) : Raises i s (.registerIndexOutOfRange b) :=
  .second_source hs (fun _ ho => Option.some.inj (hd.symm.trans ho) ▸ ha) (by omega) hb

/-! ### The fault of a step -/

/-- The record of a step's faulted state is of its fetch, of its lookup, or what the fetched instruction raises. -/
theorem stepWith_faulted_record {opc : OpcodeMap} {s t : State} {r : FaultRecord} (h : stepWith opc s = .next t)
    (hr : t.status = .faulted r) :
    (254 ≤ s.pc ∧ r = ⟨.memoryAddressOutOfRange (max s.pc 256), s.pc⟩) ∨
      (s.pc ≤ 253 ∧ r = ⟨.unknownInstruction (s.mem.read s.pc), s.pc⟩) ∨
      (s.pc ≤ 253 ∧ ∃ op c, Raises (fetched op s) s c ∧ r = ⟨c, s.pc⟩) := by
  obtain ⟨hs, ⟨hp, rfl⟩ | ⟨hp, -, rfl⟩ | ⟨hp, op, -, he⟩⟩ := stepWith_next_cases h
  · exact .inl ⟨hp, (RunStatus.faulted.inj hr).symm⟩
  · exact .inr (.inl ⟨hp, (RunStatus.faulted.inj hr).symm⟩)
  · exact .inr (.inr ⟨hp, op, exec_faulted hs he hr⟩)

/-- No instruction raises an unsupported ALU operation (60_exceptions.md R144). -/
theorem Raises.ne_unsupportedALUOperation {i : Instr} {s : State} {c : Cause} (h : Raises i s c) (k : AluKind) :
    c ≠ .unsupportedALUOperation k := by
  cases h <;> nofun

/-! ### The statements -/

/-- Settles O20: the two kinds by `alu_add` and `alu_compare`; of the three ways a step faults none is the ALU's. -/
theorem aluKindsAreClosed : Obligations.AluKindsAreClosed := by
  refine ⟨fun a b s => ⟨⟨_, alu_add a b s, ?_, s.setReg_regsSameBut a _, rfl⟩,
    ⟨_, alu_compare a b s, compareFlag_ne_unset _ _, fun _ _ => rfl⟩, fun _ => rfl⟩, fun s t k n h hr => ?_⟩
  · rw [State.reg_setReg_same, BitVec.toNat_add]
  · rcases stepWith_faulted_record h hr with ⟨-, e⟩ | ⟨-, e⟩ | ⟨-, op, c, hc, e⟩
    · cases e
    · cases e
    · exact hc.ne_unsupportedALUOperation k (congrArg FaultRecord.cause e).symm

/-- Settles O59: FL is Equal after the Compare exactly when the two bytes are equal, and that decides both branches. -/
theorem compareThenBranchFollowsEquality : Obligations.CompareThenBranchFollowsEquality := by
  intro s a b r p q k ha hb hr
  have hcmp := (Effect.cmp (s := s) ha hb).exec_eq
  by_cases h : s.reg p = s.reg q
  · have hfl := compareFlag_eq_equal_iff.mpr h
    exact ⟨_, _, _, hcmp, (Effect.jeqTaken hfl hr).exec_eq, (Effect.jneNotTaken hfl).exec_eq,
      (if_pos h).symm, (if_pos h).symm⟩
  · have hfl := compareFlag_eq_equal_iff.not.mpr h
    exact ⟨_, _, _, hcmp, (Effect.jeqNotTaken hfl).exec_eq, (Effect.jneTaken hfl hr).exec_eq,
      (if_neg h).symm, (if_neg h).symm⟩

/-- Settles O29: the product of two bytes is `BitVec.toNat_mul`'s; a reserved destination is raised first. -/
theorem multiplyWritesProductModulo256 : Obligations.MultiplyWritesProductModulo256 := by
  refine ⟨defaultOpc_row .mul, fun s a b d q ha hd hb => ?_, fun s a b h5 => (Raises.destination rfl h5).exec_eq,
    fun s a b h5 h8 => (Raises.second_source_of_destination rfl rfl h5 h8).exec_eq⟩
  refine ⟨_, (Effect.mul ha hd hb).exec_eq, ?_, rfl, s.setReg_regsSameBut d _, rfl, rfl, fun _ => rfl, rfl⟩
  rw [State.advance_reg, State.reg_setReg_same, BitVec.toNat_mul]

/-- Settles O30: the sum of two bytes is `BitVec.toNat_add`'s; a reserved destination is raised first. -/
theorem addWritesSumModulo256 : Obligations.AddWritesSumModulo256 := by
  refine ⟨defaultOpc_row .add, fun s a b d q ha hd hb => ?_, fun s a b h5 => (Raises.destination rfl h5).exec_eq,
    fun s a b h5 h8 => (Raises.second_source_of_destination rfl rfl h5 h8).exec_eq⟩
  refine ⟨_, (Effect.add ha hd hb).exec_eq, ?_, rfl, s.setReg_regsSameBut d _, rfl, rfl, fun _ => rfl, rfl⟩
  rw [State.advance_reg, State.reg_setReg_same, BitVec.toNat_add]

/-- Settles O31: one lemma about `compareFlag` for each order; Compare has two sources and no destination. -/
theorem compareSetsUnsignedOrder : Obligations.CompareSetsUnsignedOrder := by
  refine ⟨defaultOpc_row .cmp, fun s a b p q ha hb => ?_, fun s a b h8 => ?_, fun s a b ha hb => ?_⟩
  · exact ⟨_, (Effect.cmp ha hb).exec_eq, fun h => compareFlag_eq_equal_iff.mpr (BitVec.eq_of_toNat_eq h),
      compareFlag_of_gt, compareFlag_of_lt, rfl, fun _ _ => rfl, rfl, fun _ => rfl, rfl⟩
  · exact (Raises.first_source rfl (by simp [Instr.op]) (by simp [Instr.op]) rfl h8).exec_eq
  · exact (Raises.second_source rfl (by simp [Instr.destination?]) ha hb).exec_eq

end Machine

end Sys2Proof
end

section
/-! Push, Pop, Call and Return (43_stack_call.md). What each does when it completes is its `Effect`; a Push then a Pop, and a
Call then a Return, are assembled from the statements about the two instructions. -/

namespace Sys2Proof.Machine

/-! ### The stack pointer (10_state.md R25) -/

theorem State.decSP_sp_toNat (s : State) : s.decSP.sp.toNat = (s.sp.toNat + 255) % 256 := by
  rw [State.decSP_sp]
  bv_omega

theorem State.incSP_sp_toNat (s : State) : s.incSP.sp.toNat = (s.sp.toNat + 1) % 256 := by
  rw [State.incSP_sp]
  bv_omega

/-- An increment undoes a decrement, at 0 too. -/
theorem eq_of_toNat_decremented_incremented {a b c : Byte} (hdec : b.toNat = (a.toNat + 255) % 256)
    (hinc : c.toNat = (b.toNat + 1) % 256) : c = a := by
  bv_omega

/-! ### Register frames -/

theorem State.decSP_regsSameBut (s : State) : RegsSameBut [.sp] s s.decSP :=
  s.setReg_regsSameBut .sp _

theorem State.incSP_regsSameBut (s : State) : RegsSameBut [.sp] s s.incSP :=
  s.setReg_regsSameBut .sp _

theorem RegsSameBut.trans {ps qs : List RegId} {s t u : State} (h : RegsSameBut ps s t) (h' : RegsSameBut qs t u) :
    RegsSameBut (ps ++ qs) s u := by
  intro q hq
  obtain ⟨hps, hqs⟩ := not_or.mp (mt List.mem_append.mpr hq)
  exact (h' q hqs).trans (h q hps)

/-! ### The bytes stored and loaded -/

theorem Memory.read_write_same (m : Memory) (a : Nat) (v : Byte) : (Memory.write m a v).read a = v := by
  rw [Memory.read_write, if_pos rfl]

/-- Where a Call executes, its return address is a byte (20_memory.md R54). -/
theorem returnAddress_toNat {s : State} (h : s.pc ≤ 253) : (returnAddress s).toNat = s.pc + 2 :=
  Nat.mod_eq_of_lt (by omega)

/-- What Push stores and where Call jumps: the register as it stands after the decrement. -/
theorem State.decSP_reg_eq_ite (s : State) (q : RegId) :
    s.decSP.reg q = if q = .sp then s.decSP.sp else s.reg q := by
  rw [State.decSP_reg, State.decSP_sp]

/-- The increment that ends a Pop leaves the register that was loaded. -/
theorem State.incSP_setReg_reg (s : State) {d : RegId} (hd : d.val < 5) (v : Byte) : (s.setReg d v).incSP.reg d = v := by
  have hne : d ≠ .sp := by
    rintro rfl
    exact absurd hd (by decide)
  rw [State.incSP_reg_ne _ hne, State.reg_setReg_same]

/-! ### The statements -/

/-- Settles O32: the register is read after the decrement, and stored at the stack pointer that the decrement leaves. -/
theorem pushStoresBelowStackPointer : Obligations.PushStoresBelowStackPointer := by
  refine ⟨defaultOpc_row .push, fun s r q hr => ?_, fun s r h8 => ?_⟩
  · have hexec := (Effect.push (s := s) hr).exec_eq
    exact ⟨_, hexec, s.decSP_sp_toNat, rfl, (Memory.read_write_same ..).trans (s.decSP_reg_eq_ite q),
      exec_memSameBut hexec, rfl, s.decSP_regsSameBut, rfl, rfl, rfl⟩
  · exact (Raises.first_source rfl (by simp [Instr.op]) (by simp [Instr.op]) rfl h8).exec_eq

/-- Settles O33: the register written is not the stack pointer, which moves after it. -/
theorem popLoadsAtStackPointer : Obligations.PopLoadsAtStackPointer := by
  refine ⟨defaultOpc_row .pop, fun s r d hr hd => ?_, fun s r h5 => (Raises.destination rfl h5).exec_eq⟩
  refine ⟨_, (Effect.pop hr hd).exec_eq, s.incSP_setReg_reg hd _, ?_, rfl,
    (s.setReg_regsSameBut d _).trans (State.incSP_regsSameBut _), rfl, rfl, fun _ => rfl, rfl⟩
  rw [State.advance_sp, State.incSP_sp_toNat, State.setReg_sp s hd]

/-- Settles O34: the store is Push's with the return address as its byte; the target is read after the decrement. -/
theorem callPushesReturnAddressAndJumps : Obligations.CallPushesReturnAddressAndJumps := by
  refine ⟨defaultOpc_row .call, fun s r q hr hp => ?_, fun s r h8 => ?_⟩
  · have hexec := (Effect.call (s := s) hr).exec_eq
    refine ⟨_, hexec, s.decSP_sp_toNat, rfl, ?_, exec_memSameBut hexec, congrArg BitVec.toNat (s.decSP_reg_eq_ite q),
      s.decSP_regsSameBut, rfl, rfl, rfl⟩
    exact (congrArg BitVec.toNat (Memory.read_write_same ..)).trans (returnAddress_toNat hp)
  · exact (Raises.first_source rfl (by simp [Instr.op]) (by simp [Instr.op]) rfl h8).exec_eq

/-- Settles O35: Return has no operand to check, and the byte at SP becomes the pc. -/
theorem returnPopsProgramCounter : Obligations.ReturnPopsProgramCounter :=
  ⟨defaultOpc_row .ret, fun _ => ⟨_, Effect.ret.exec_eq, rfl, State.incSP_sp_toNat _, State.incSP_regsSameBut _, rfl, rfl,
    fun _ => rfl, rfl⟩⟩

/-- Settles O57: the Pop reads at the address the Push stored to, and its increment undoes the Push's decrement. -/
theorem pushThenPopMovesValue : Obligations.PushThenPopMovesValue := by
  intro s r r2 q d hr hr2 hd
  obtain ⟨-, hpush, -⟩ := pushStoresBelowStackPointer
  obtain ⟨-, hpop, -⟩ := popLoadsAtStackPointer
  obtain ⟨t, ht, hspt, haddr, hstored, hmemt, hpct, hregst, -⟩ := hpush s r q hr
  obtain ⟨u, hu, hloaded, hspu, hpcu, hregsu, -, -, hmemu, -⟩ := hpop t r2 d hr2 hd
  have hsp : u.sp = s.sp := eq_of_toNat_decremented_incremented hspt hspu
  have hdec : t.sp = s.sp - 1 := by bv_omega
  refine ⟨t, u, ht, hu, ?_, hsp, by rw [hpcu, hpct], fun p hp => ?_, fun b hb => (hmemu b).trans (hmemt b hb)⟩
  · rw [hloaded, ← haddr, hstored, hdec]
  · by_cases e : p = .sp
    · exact e ▸ hsp
    · exact hregst.trans hregsu p (by simpa [e] using hp)

/-- Settles O58: the Return reads the return address where the Call stored it. -/
theorem returnResumesAfterCall : Obligations.ReturnResumesAfterCall := by
  intro s r q hr hp
  obtain ⟨-, hcall, -⟩ := callPushesReturnAddressAndJumps
  obtain ⟨-, hret⟩ := returnPopsProgramCounter
  obtain ⟨t, ht, hspt, haddr, hstored, -⟩ := hcall s r q hr hp
  refine ⟨t, ht, fun u hspu hread => ?_⟩
  obtain ⟨v, hv, hpc, hspv, -⟩ := hret u
  refine ⟨v, hv, ?_, eq_of_toNat_decremented_incremented hspt (hspu ▸ hspv)⟩
  rw [hpc, hread, ← haddr, hstored]

end Sys2Proof.Machine
end

section
/-! Jump, JumpIfEqual and JumpIfNotEqual (44_branch.md). Taken or not, a branch that completes moves the pc and nothing else;
it raises an operand that names no register only when it is taken. -/

namespace Sys2Proof.Machine

/-! ### Branching on FL -/

/-- The three flag states that JumpIfEqual does not take and JumpIfNotEqual takes (R131, R132). -/
theorem FlagState.ne_equal_iff {f : FlagState} : f ≠ .equal ↔ f = .unset ∨ f = .greater ∨ f = .less := by
  cases f <;> simp

/-! ### The effect and the fault of a branch -/

/-- An effect that is a new pc completes with the registers, FL, status, memory and output as they were. -/
theorem Effect.frame_of_pc {i : Instr} {s : State} {n : Nat} (h : Effect i s { s with pc := n }) :
    ∃ t, exec i s = .next t ∧ t.pc = n ∧ RegsSameBut [] s t ∧ t.fl = s.fl ∧ t.status = s.status ∧ MemSame s t ∧
      t.out = s.out :=
  ⟨_, h.exec_eq, rfl, fun _ _ => rfl, rfl, rfl, fun _ => rfl, rfl⟩

theorem Raises.jeq_source {s : State} {r : Byte} (hf : s.fl = .equal) (h8 : 8 ≤ r.toNat) :
    Raises (.jeq r) s (.registerIndexOutOfRange r) :=
  .source nofun (fun _ => hf) nofun (List.find?_cons_of_pos (by simp [sourceLegal_false h8]))

theorem Raises.jne_source {s : State} {r : Byte} (hf : s.fl ≠ .equal) (h8 : 8 ≤ r.toNat) :
    Raises (.jne r) s (.registerIndexOutOfRange r) :=
  .source nofun nofun (fun _ => hf) (List.find?_cons_of_pos (by simp [sourceLegal_false h8]))

/-! ### The statements -/

/-- Settles O36: the effect of Jump is a new pc, and a Jump to its own address is `exec_jmp_self`. -/
theorem jumpGoesToRegister : Obligations.JumpGoesToRegister := by
  refine ⟨defaultOpc_row .jmp, fun s r q hr => (Effect.jmp hr).frame_of_pc, fun s r q => exec_jmp_self, fun s r h8 => ?_⟩
  exact (Raises.first_source rfl (by simp [Instr.op]) (by simp [Instr.op]) rfl h8).exec_eq

/-- Settles O37: the operand is looked at only when FL is Equal. -/
theorem jumpIfEqualBranchesOnEqual : Obligations.JumpIfEqualBranchesOnEqual :=
  ⟨defaultOpc_row .jeq,
    fun _ _ _ hf hr => (Effect.jeqTaken hf hr).frame_of_pc,
    fun _ _ hf => (Effect.jeqNotTaken (FlagState.ne_equal_iff.mpr hf)).frame_of_pc,
    fun _ _ hf h8 => (Raises.jeq_source hf h8).exec_eq⟩

/-- Settles O38: the operand is looked at unless FL is Equal, so with FL Unset too. -/
theorem jumpIfNotEqualBranchesOnNotEqual : Obligations.JumpIfNotEqualBranchesOnNotEqual :=
  ⟨defaultOpc_row .jne,
    fun _ _ _ hf hr => (Effect.jneTaken (FlagState.ne_equal_iff.mpr hf) hr).frame_of_pc,
    fun _ _ hf => (Effect.jneNotTaken hf).frame_of_pc,
    fun _ _ hf h8 => (Raises.jne_source (FlagState.ne_equal_iff.mpr hf) h8).exec_eq⟩

end Sys2Proof.Machine
end

section
/-! Faults (60_exceptions.md): the outcomes of a step, what a step that raises leaves, and which check it failed. -/

namespace Sys2Proof.Machine

/-! ### The outcomes of a step (R140) -/

section Step

variable {opc : OpcodeMap} {s t : State}

/-- A next state is Running, Halted, or the start state with only its status changed to Faulted. -/
theorem stepWith_status_cases (h : stepWith opc s = .next t) :
    t.status = .running ∨ t.status = .halted ∨ ∃ c, t = faultedFrom s c := by
  rcases stepWith_faulted_or_exec h with hf | ⟨i, hi⟩
  · exact .inr (.inr hf)
  · rw [← running_of_stepWith h]
    exact (exec_status_cases hi).imp_right (.imp_left And.right)

/-- A faulted next state is what raising its own record leaves of the start state (R149). -/
theorem eq_faultedFrom_of_stepWith (h : stepWith opc s = .next t) {r : FaultRecord} (hr : t.status = .faulted r) :
    t = faultedFrom s r.cause ∧ r.address = s.pc := by
  rcases stepWith_status_cases h with hs | hs | ⟨c, rfl⟩
  · cases hs.symm.trans hr
  · cases hs.symm.trans hr
  · obtain rfl : _ = r := RunStatus.faulted.inj hr
    exact ⟨rfl, rfl⟩

end Step

@[simp] theorem faultedFrom_faultRecord? (s : State) (c : Cause) : (faultedFrom s c).faultRecord? = some ⟨c, s.pc⟩ := rfl

/-- No instruction raises a memory fault: its accesses are at byte addresses (20_memory.md R52). -/
theorem Raises.ne_memoryAddressOutOfRange {i : Instr} {s : State} {c : Cause} (h : Raises i s c) (a : Nat) :
    c ≠ .memoryAddressOutOfRange a := by
  cases h <;> nofun

/-! ### The statements -/

/-- Settles O15: `causeCode`, cause by cause. -/
theorem causeCodesAreOneToFive : Obligations.CauseCodesAreOneToFive :=
  fun _ _ _ _ => ⟨rfl, rfl, rfl, rfl, rfl⟩

/-- Settles O11: a running state has a next state, of one of three kinds; and only a running state has one. -/
theorem runningStatesStepTerminalStatesDoNot : Obligations.RunningStatesStepTerminalStatesDoNot := by
  refine ⟨fun s hs => ?_, fun s t hs h => hs (running_of_stepWith h)⟩
  obtain ⟨t, ht⟩ := stepWith_exists_next defaultOpc hs
  exact ⟨t, ht, stepWith_status_cases ht⟩

/-- Settles O16: the faulted state is `faultedFrom` the start state, which keeps every other field. -/
theorem faultsArePrecise : Obligations.FaultsArePrecise := by
  intro s t r h hr
  obtain ⟨rfl, haddr⟩ := eq_faultedFrom_of_stepWith h hr
  refine ⟨haddr, faultedFrom_reg s _, rfl, rfl, rfl, rfl, ?_⟩
  rw [faultedFrom_faultRecord?, ← haddr]

/-- Settles O17: fetch and lookup are checked before the handler runs, whose own order is that of `Raises`. -/
theorem firstFailingCheckIsRaised : Obligations.FirstFailingCheckIsRaised := by
  refine fun s hs => ⟨stepWith_fetch_fault hs, stepWith_unassigned hs, fun i hp hd => ?_⟩
  have raised {c : Cause} (hr : Raises i s c) : step s = .next (faultedFrom s c) :=
    (stepWith_of_fetch hs (fetch_ok hp) hd).trans hr.exec_eq
  exact ⟨fun o ho h5 => raised (.destination ho h5), fun o hdest he hn hf => raised (.source hdest he hn hf)⟩

/-- Settles O21: of the three ways a step faults, the fetch's alone is a memory fault. -/
theorem memoryFaultsComeOnlyFromFetch : Obligations.MemoryFaultsComeOnlyFromFetch := by
  refine ⟨fun s hs hp => ⟨_, stepWith_fetch_fault hs hp, rfl⟩, fun s t a n h hr => ?_, fun i s t a n hs h hr => ?_,
    fun _ _ => rfl⟩
  · rcases stepWith_faulted_record h hr with ⟨hp, e⟩ | ⟨-, e⟩ | ⟨-, op, c, hc, e⟩
    · exact ⟨hp, Cause.memoryAddressOutOfRange.inj (congrArg FaultRecord.cause e)⟩
    · cases e
    · exact absurd (congrArg FaultRecord.cause e).symm (hc.ne_memoryAddressOutOfRange a)
  · obtain ⟨c, hc, e⟩ := exec_faulted hs h hr
    exact hc.ne_memoryAddressOutOfRange a (congrArg FaultRecord.cause e).symm

end Sys2Proof.Machine
end

section
/-! The words of spec/opcode_table.json (30_encoding.md section 2): the instruction a table word stands for, by the window
cut from it. -/

namespace Sys2Proof

section Word

variable {nbits w : Nat}

/-- A table word whose first byte is the opcode of a name stands for that instruction, with the two bytes after it as its
operands. -/
theorem decodeTableWord_of_window {op : Op} {o1 o2 : Byte} (h : windowOfWord nbits w = ⟨defaultOpc op, o1, o2⟩) :
    decodeTableWord nbits w = some (instrOf op o1 o2) := by
  rw [decodeTableWord_eq_some_iff, h, decodeWindow_opcode defaultOpc_injective]

/-- A table word stands for no instruction exactly when its first byte is no instruction's opcode (R77). -/
theorem decodeTableWord_eq_none_iff :
    decodeTableWord nbits w = none ↔ ∀ op, defaultOpc op ≠ (windowOfWord nbits w).opcode := by
  simp only [Option.eq_none_iff_forall_ne_some, ne_eq, decodeTableWord_eq_some_iff, ← not_exists,
    exists_decodeWindow_eq_ok_iff]

end Word

/-- Settles O2: the windows of the first five words begin with an opcode, and that of the last with the unassigned byte 0. -/
theorem writtenOutTableWordsDecode : Obligations.WrittenOutTableWordsDecode := by
  refine ⟨decodeTableWord_of_window (op := .hlt) (o1 := 0) (o2 := 0) (by decide),
    decodeTableWord_of_window (op := .ldi) (by decide),
    decodeTableWord_of_window (op := .add) (by decide),
    decodeTableWord_of_window (op := .push) (o2 := 0) (by decide),
    decodeTableWord_of_window (op := .jne) (o2 := 0) (by decide),
    decodeTableWord_eq_none_iff.mpr fun op => ?_⟩
  cases op <;> decide

end Sys2Proof
end
